-- ==== Sys2Proof/Word.lean ====
section
/-! DEFINITION. The four widths of the core's data (spec/00_scope.md R3, R4, R5; spec/30_encoding.md R70):
a byte, a 32-bit word (one column), a 128-bit block (also a key and a round key) and a 16-bit command word.
All values are unsigned bit patterns (spec/00_scope.md section 5). -/

namespace Sys2Proof

/-- A byte, an element of GF(2^8) (R100). -/
abbrev Byte := BitVec 8

/-- A 32-bit word: four bytes, one column of the state array (R5). -/
abbrev Word := BitVec 32

/-- A 128-bit block, key or round key: sixteen bytes (R4). -/
abbrev Block := BitVec 128

/-- A command word `cw[15:0]` (R70). -/
abbrev CmdWord := BitVec 16

end Sys2Proof
end

