-- ==== Sys2Proof/Config.lean ====
section
/-! DEFINITION. The values the spec leaves open (spec/93_implementation_defined.md U1, U3, U4). Each is an opaque
constant with no body: no proof can learn a value of it, so a claim holds whatever it is. -/

namespace Sys2Proof

/-- U1 (R35, R280, R281), assumption 2: the byte of the round-key store at an address that no KEYEXP has written since
the last reset. The first argument names the contents (`State.rkEra`), the second is the byte address. -/
opaque Config.unspecifiedRkByte : Nat → Nat → Byte

/-- U1, assumption 2: the name of the contents a reset leaves in the round-key store. They may depend on the edge it
happens at, on the name and the listed bytes of the contents before it, and on `ACC`: reset neither clears nor keeps
the old key (R281). -/
opaque Config.rkEraAfterReset : Nat → Nat → List Host.Cell → Block → Nat

/-- U3 (R285), assumption 3: what `dout` shows at a clock edge with `BUSY = 1`. It may depend on the number of the edge, so
it may change from edge to edge, on the command word and `din`, on `ACC`, and on the round-key store: the name of its
unspecified contents and its listed bytes. -/
opaque Config.doutWhileBusy : Nat → CmdWord → Block → Block → Nat → List Host.Cell → Block

/-- U4, U5 (R31, R288), assumption 4: `LAT(op) - 1`, the clock edges a command takes beyond the one every command takes.
It may depend on the edge the command is accepted at, on the command word, on `din`, on `ACC` and on the round-key
store: the spec claims no independence of the operands or the key. -/
opaque Config.extraLatency : Nat → CmdWord → Block → Block → Nat → List Host.Cell → Nat

end Sys2Proof
end

