-- ==== Sys2Proof/Syntax.lean ====
section
/-! DEFINITION. The commands of the core (spec/30_encoding.md R79): one constructor per row of the opcode table, in the
table's order. A command of format D or DR carries its SRC field, one of format DR or R its RIDX field (R71). -/

namespace Sys2Proof

/-- The SRC field `cw[7]` (R74, R75): where a command takes its data operand from. -/
inductive Src where
  /-- SRC = 0: the data input sampled with the command. -/
  | din
  /-- SRC = 1: the accumulator as it is at acceptance. -/
  | acc
deriving DecidableEq, Repr

/-- One command. RIDX is kept as the number it is (R73); `WellFormed` says it fits its four bits. -/
inductive Instr where
  | gf2 (src : Src)
  | gf3 (src : Src)
  | gf4 (src : Src)
  | gf8 (src : Src)
  | gf9 (src : Src)
  | gf11 (src : Src)
  | gf13 (src : Src)
  | gf14 (src : Src)
  | sboxb (src : Src)
  | isboxb (src : Src)
  | subw (src : Src)
  | mixcol (src : Src)
  | imixcol (src : Src)
  | keyexp (src : Src)
  | rdrk (ridx : Nat)
  | ark (src : Src) (ridx : Nat)
  | subbytes (src : Src)
  | isubbytes (src : Src)
  | shiftrows (src : Src)
  | ishiftrows (src : Src)
  | mixcols (src : Src)
  | imixcols (src : Src)
  | enc (src : Src)
  | dec (src : Src)
deriving DecidableEq, Repr

end Sys2Proof
end

