-- ==== Sys2Proof/WellFormed.lean ====
section
/-! DEFINITION. Which terms of `Instr` stand for command words (spec/30_encoding.md R71, R73): RIDX is a 4-bit number.
The values 11 to 15 are well formed: they decode, and fault when executed (R73, R252). -/

namespace Sys2Proof

/-- The check: the round index of RDRK and ARK fits the four bits `cw[3:0]` (R73). -/
def Instr.wellFormed : Instr → Bool
  | .gf2 _ => true
  | .gf3 _ => true
  | .gf4 _ => true
  | .gf8 _ => true
  | .gf9 _ => true
  | .gf11 _ => true
  | .gf13 _ => true
  | .gf14 _ => true
  | .sboxb _ => true
  | .isboxb _ => true
  | .subw _ => true
  | .mixcol _ => true
  | .imixcol _ => true
  | .keyexp _ => true
  | .rdrk ridx => decide (ridx < 16)
  | .ark _ ridx => decide (ridx < 16)
  | .subbytes _ => true
  | .isubbytes _ => true
  | .shiftrows _ => true
  | .ishiftrows _ => true
  | .mixcols _ => true
  | .imixcols _ => true
  | .enc _ => true
  | .dec _ => true

/-- `i` stands for a command word. -/
abbrev WellFormed (i : Instr) : Prop := i.wellFormed = true

end Sys2Proof
end

