-- ==== Sys2Proof/Decode.lean ====
section
/-! DEFINITION. Decoding and encoding of command words (spec/30_encoding.md R70 to R83). `decode` follows R80 and is
total on all 65536 words; a word it refuses is ILLEGAL, and the reason is named. `encode` is written from the field
layout of R71 and the OP column of R79. -/

namespace Sys2Proof

/-! ### Decoding (R80) -/

/-- Why a command word is ILLEGAL (R78, R80, R81). The core itself does not tell the reasons apart: each is the fault
ILLEGAL_CMD (R251). -/
inductive Illegal where
  /-- `cw[6:4]` is not 000. -/
  | reservedBits
  /-- A format D opcode with `cw[3:0]` not 0000. -/
  | indexBits
  /-- RDRK with `cw[7] = 1`. -/
  | srcBit
  /-- An OP value that is not in R79. -/
  | unusedOp (op : BitVec 8)
deriving DecidableEq, Repr

/-- `OP = cw[15:8]` (R72). -/
def opField (cw : CmdWord) : BitVec 8 := cw.extractLsb' 8 8

/-- `SRC = cw[7]` (R74). -/
def srcField (cw : CmdWord) : Src := if cw.getLsbD 7 then .acc else .din

/-- The must-be-zero field `cw[6:4]` (R78). -/
def reservedField (cw : CmdWord) : BitVec 3 := cw.extractLsb' 4 3

/-- `RIDX = cw[3:0]` (R73). -/
def ridxField (cw : CmdWord) : BitVec 4 := cw.extractLsb' 0 4

/-- The 22 opcodes of format D (R79). -/
def formatD : List (BitVec 8 × (Src → Instr)) :=
  [(0x12#8, .gf2), (0x13#8, .gf3), (0x14#8, .gf4), (0x18#8, .gf8),
   (0x19#8, .gf9), (0x1B#8, .gf11), (0x1D#8, .gf13), (0x1E#8, .gf14),
   (0x20#8, .sboxb), (0x21#8, .isboxb), (0x22#8, .subw),
   (0x30#8, .mixcol), (0x31#8, .imixcol),
   (0x40#8, .keyexp),
   (0x52#8, .subbytes), (0x53#8, .isubbytes), (0x54#8, .shiftrows),
   (0x55#8, .ishiftrows), (0x56#8, .mixcols), (0x57#8, .imixcols),
   (0x60#8, .enc), (0x61#8, .dec)]

/-- The decoder of R80, test by test in the order it gives. -/
def decode (cw : CmdWord) : Except Illegal Instr :=
  if reservedField cw ≠ 0#3 then .error .reservedBits
  else match formatD.lookup (opField cw) with
    | some command =>
      if ridxField cw ≠ 0#4 then .error .indexBits else .ok (command (srcField cw))
    | none =>
      if opField cw = 0x50#8 then .ok (.ark (srcField cw) (ridxField cw).toNat)
      else if opField cw = 0x41#8 then
        if srcField cw = .acc then .error .srcBit else .ok (.rdrk (ridxField cw).toNat)
      else .error (.unusedOp (opField cw))

/-! ### Encoding (R71, R79) -/

/-- The bit `cw[7]` a SRC value stands for (R74). -/
def Src.bit : Src → BitVec 1
  | .din => 0#1
  | .acc => 1#1

/-- The fields of R71 side by side: OP, SRC, 000, RIDX. -/
def packFields (op : BitVec 8) (src : BitVec 1) (ridx : BitVec 4) : CmdWord :=
  op ++ src ++ 0#3 ++ ridx

/-- The command word of a command (R71, R79): a command without a field has zeros in its place (R78). -/
def encode : Instr → CmdWord
  | .gf2 src => packFields 0x12#8 src.bit 0#4
  | .gf3 src => packFields 0x13#8 src.bit 0#4
  | .gf4 src => packFields 0x14#8 src.bit 0#4
  | .gf8 src => packFields 0x18#8 src.bit 0#4
  | .gf9 src => packFields 0x19#8 src.bit 0#4
  | .gf11 src => packFields 0x1B#8 src.bit 0#4
  | .gf13 src => packFields 0x1D#8 src.bit 0#4
  | .gf14 src => packFields 0x1E#8 src.bit 0#4
  | .sboxb src => packFields 0x20#8 src.bit 0#4
  | .isboxb src => packFields 0x21#8 src.bit 0#4
  | .subw src => packFields 0x22#8 src.bit 0#4
  | .mixcol src => packFields 0x30#8 src.bit 0#4
  | .imixcol src => packFields 0x31#8 src.bit 0#4
  | .keyexp src => packFields 0x40#8 src.bit 0#4
  | .rdrk ridx => packFields 0x41#8 0#1 (BitVec.ofNat 4 ridx)
  | .ark src ridx => packFields 0x50#8 src.bit (BitVec.ofNat 4 ridx)
  | .subbytes src => packFields 0x52#8 src.bit 0#4
  | .isubbytes src => packFields 0x53#8 src.bit 0#4
  | .shiftrows src => packFields 0x54#8 src.bit 0#4
  | .ishiftrows src => packFields 0x55#8 src.bit 0#4
  | .mixcols src => packFields 0x56#8 src.bit 0#4
  | .imixcols src => packFields 0x57#8 src.bit 0#4
  | .enc src => packFields 0x60#8 src.bit 0#4
  | .dec src => packFields 0x61#8 src.bit 0#4

/-! ### The opcode table (R79) -/

/-- One row of the opcode table: `cw` is this command exactly when `cw &&& mask = pattern` (R79). -/
structure Row where
  mnemonic : String
  pattern : CmdWord
  mask : CmdWord
deriving DecidableEq, Repr

/-- The row of R79 a command belongs to. -/
def Instr.row : Instr → Row
  | .gf2 _ => ⟨"GF2", 0x1200#16, 0xFF7F#16⟩
  | .gf3 _ => ⟨"GF3", 0x1300#16, 0xFF7F#16⟩
  | .gf4 _ => ⟨"GF4", 0x1400#16, 0xFF7F#16⟩
  | .gf8 _ => ⟨"GF8", 0x1800#16, 0xFF7F#16⟩
  | .gf9 _ => ⟨"GF9", 0x1900#16, 0xFF7F#16⟩
  | .gf11 _ => ⟨"GF11", 0x1B00#16, 0xFF7F#16⟩
  | .gf13 _ => ⟨"GF13", 0x1D00#16, 0xFF7F#16⟩
  | .gf14 _ => ⟨"GF14", 0x1E00#16, 0xFF7F#16⟩
  | .sboxb _ => ⟨"SBOXB", 0x2000#16, 0xFF7F#16⟩
  | .isboxb _ => ⟨"ISBOXB", 0x2100#16, 0xFF7F#16⟩
  | .subw _ => ⟨"SUBW", 0x2200#16, 0xFF7F#16⟩
  | .mixcol _ => ⟨"MIXCOL", 0x3000#16, 0xFF7F#16⟩
  | .imixcol _ => ⟨"IMIXCOL", 0x3100#16, 0xFF7F#16⟩
  | .keyexp _ => ⟨"KEYEXP", 0x4000#16, 0xFF7F#16⟩
  | .rdrk _ => ⟨"RDRK", 0x4100#16, 0xFFF0#16⟩
  | .ark _ _ => ⟨"ARK", 0x5000#16, 0xFF70#16⟩
  | .subbytes _ => ⟨"SUBBYTES", 0x5200#16, 0xFF7F#16⟩
  | .isubbytes _ => ⟨"ISUBBYTES", 0x5300#16, 0xFF7F#16⟩
  | .shiftrows _ => ⟨"SHIFTROWS", 0x5400#16, 0xFF7F#16⟩
  | .ishiftrows _ => ⟨"ISHIFTROWS", 0x5500#16, 0xFF7F#16⟩
  | .mixcols _ => ⟨"MIXCOLS", 0x5600#16, 0xFF7F#16⟩
  | .imixcols _ => ⟨"IMIXCOLS", 0x5700#16, 0xFF7F#16⟩
  | .enc _ => ⟨"ENC", 0x6000#16, 0xFF7F#16⟩
  | .dec _ => ⟨"DEC", 0x6100#16, 0xFF7F#16⟩

/-- The command the decoder reads from a command word given as a number with bit 0 its least significant bit; bits
from `nbits` up are taken as 0. Every command is one 16-bit word (R70, R83). -/
def decodeTableWord (nbits w : Nat) : Option Instr :=
  match decode (BitVec.ofNat 16 (w % 2 ^ nbits)) with
  | .ok i => some i
  | .error _ => none

end Sys2Proof
end

