-- ==== Sys2Proof/Machine/State.lean ====
section
/-! DEFINITION. The state of the core (spec/10_state.md R20 to R28, R35), the host's side of the ports (R29, R30), the
stop reasons and the state after reset (R35, R280). All of it is plain data. -/

namespace Sys2Proof.Machine

/-- The round-key store (R22, R50): a list of (byte address, byte) with addresses strictly rising and below 176, one
entry for each byte that a KEYEXP has written since the last reset. An address that is not listed holds no defined
value (R35, assumption 2). -/
abbrev Memory := List Host.Cell

/-- The levels on the core's input ports at one clock edge (R29); `clk` is the edge itself. -/
structure HostPort where
  /-- `rst`: synchronous reset, active high (R280). -/
  rst : Bool
  /-- `cmd_valid`: the host presents a command on `cw` and `din` (R30). -/
  cmdValid : Bool
  /-- `cw`: the command word (R70). -/
  cw : CmdWord
  /-- `din`: the data input (R75, R76). -/
  din : Block
deriving DecidableEq, Repr

/-- Nothing stops this machine with a fault: each of the spec's three fault causes has an entry the spec describes
(R256), which is a next state, and R265 says that the step is total. So the type has no constructor. -/
inductive Fault where
deriving DecidableEq, Repr

/-- Why a step has no meaning. -/
inductive Refusal where
  /-- Raised by an arm of `exec` whose command has no meaning yet; safe. No arm raises it: every command is modelled. -/
  | notModelled (mnemonic : String)
deriving DecidableEq, Repr

/-- The state: the tuple of R20, then what the host is driving, then the model's own two counters. -/
structure State where
  /-- `ACC`, the accumulator (R21). -/
  acc : Block
  /-- `RK`, the round-key store, 176 bytes (R22, R50). -/
  rk : Memory
  /-- `KV`, key valid (R23). -/
  kv : Bool
  /-- `BUSY`, a command is in progress (R24). -/
  busy : Bool
  /-- `ERR`, the core is locked by a fault (R25). -/
  err : Bool
  /-- `ECAUSE`, the cause code of that fault (R26). -/
  ecause : BitVec 2
  /-- `RND`, the sequencer's round counter (R27). -/
  rnd : BitVec 4
  /-- What the host drives on the input ports now (R29); `cw` and `din` are sampled from here (R30). -/
  port : HostPort
  /-- What the host will drive next, in order (assumption 1). -/
  host : List HostPort
  /-- The model's own: the name of the unspecified contents of `rk`, a new one at each reset (assumption 2). -/
  rkEra : Nat
  /-- The model's own: how many edges there have been; names the value on `dout` while busy (assumption 3). -/
  edge : Nat
deriving DecidableEq, Repr

/-- The input ports with nothing asserted (assumption 1). -/
def HostPort.quiet : HostPort := { rst := false, cmdValid := false, cw := 0#16, din := 0#128 }

/-- The state after reset (R35, R280): every register zero, the round-key store with no defined byte, the host
presenting nothing. -/
def State.reset : State :=
  { acc := 0#128
    rk := []
    kv := false
    busy := false
    err := false
    ecause := 0#2
    rnd := 0#4
    port := HostPort.quiet
    host := []
    rkEra := 0
    edge := 0 }

end Sys2Proof.Machine
end

