-- ==== Sys2Proof/Machine/Flags.lean ====
section
/-! DEFINITION. Fault causes, the status view and the output ports (spec/10_state.md R24 to R29; spec/60_exceptions.md R250).
There are no condition codes: no datapath function sets or reads one (spec/10_state.md section 4). -/

namespace Sys2Proof.Machine

/-- The three fault causes (R250). -/
inductive Cause where
  /-- The command word is not one of the 92 that decode (R251). -/
  | illegalCmd
  /-- ARK or RDRK with RIDX above 10 (R252). -/
  | ridxRange
  /-- RDRK, ARK, ENC or DEC while KV is 0 (R253). -/
  | noKey
deriving DecidableEq, Repr

/-- The code written to `ECAUSE` (R26, R250). -/
def Cause.code : Cause → BitVec 2
  | .illegalCmd => 1#2
  | .ridxRange => 2#2
  | .noKey => 3#2

/-- `cmd_ready = (BUSY == 0) and (ERR == 0)` (R29). -/
def State.cmdReady (s : State) : Bool := !s.busy && !s.err

/-- `dout = ACC` (R29) while `BUSY = 0`; while `BUSY = 1` the port shows an unspecified value (R285, assumption 3). -/
def State.dout (s : State) : Block :=
  if s.busy then Config.doutWhileBusy s.edge s.port.cw s.port.din s.acc s.rkEra s.rk else s.acc

/-- `status[7:0]` (R28): bit 0 BUSY, 1 KV, 2 ERR, 4:3 ECAUSE, 7:5 zero. -/
def State.status (s : State) : Byte :=
  0#3 ++ s.ecause ++ BitVec.ofBool s.err ++ BitVec.ofBool s.kv ++ BitVec.ofBool s.busy

end Sys2Proof.Machine
end

