-- ==== Sys2Proof/Machine/Layout.lean ====
section
/-! DEFINITION. Byte, word and state-array numbering (spec/00_scope.md R4, R5, R6; spec/20_memory.md R55): everything is
big-endian, byte 0 is the most significant byte, and a block fills the 4 by 4 state array column by column. -/

namespace Sys2Proof.Machine

/-- `B(v, i) = v[127-8*i : 120-8*i]` (R4). -/
def blockByte (v : Block) (i : Fin 16) : Byte := v.extractLsb' (120 - 8 * i.val) 8

/-- `b(w, j) = w[31-8*j : 24-8*j]` (R5). -/
def wordByte (w : Word) (j : Fin 4) : Byte := w.extractLsb' (24 - 8 * j.val) 8

/-- `Col(v, c) = v[127-32*c : 96-32*c]` (R5). -/
def col (v : Block) (c : Fin 4) : Word := v.extractLsb' (96 - 32 * c.val) 32

/-- `Word(a0, a1, a2, a3) = a0 ‖ a1 ‖ a2 ‖ a3` (spec/00_scope.md section 5). -/
def mkWord (a0 a1 a2 a3 : Byte) : Word := a0 ++ a1 ++ a2 ++ a3

/-- Four words side by side, word 0 the most significant (R5). -/
def ofCols (w0 w1 w2 w3 : Word) : Block := w0 ++ w1 ++ w2 ++ w3

/-- `Bytes(b0, ..., b15) = b0 ‖ b1 ‖ ... ‖ b15` (spec/00_scope.md section 5), put together word by word (R5). -/
def mkBlock (b : Fin 16 → Byte) : Block :=
  ofCols (mkWord (b 0) (b 1) (b 2) (b 3)) (mkWord (b 4) (b 5) (b 6) (b 7))
    (mkWord (b 8) (b 9) (b 10) (b 11)) (mkWord (b 12) (b 13) (b 14) (b 15))

/-- `St(v, r, c) = B(v, r + 4*c)` (R6). -/
def stateElem (v : Block) (r c : Fin 4) : Byte :=
  blockByte v ⟨r.val + 4 * c.val, by omega⟩

end Sys2Proof.Machine
end

