-- ==== Sys2Proof/Machine/Ops.lean ====
section
/-! DEFINITION. The shared operations: the round-key store (spec/20_memory.md R50 to R58), the sequencer (spec/45_cipher_sequencer.md
R228), completing a command (spec/10_state.md R31), taking a fault and leaving it by reset (spec/60_exceptions.md R254, R256, R257;
spec/70_reset_and_hazards.md R280), and the host's ports (spec/10_state.md R29, R30). -/

namespace Sys2Proof.Machine

/-! ### The round-key store as data (R50, R51) -/

/-- The store has byte addresses 0 to 175 (R50). -/
def rkBytes : Nat := 176

/-- The byte listed at an address, none where no KEYEXP has written since the last reset. -/
def Memory.read : Memory → Nat → Option Byte
  | [], _ => none
  | (k, b) :: m, a => bif Nat.beq k a then some b else Memory.read m a

/-- List a byte at an address, in its place in the rising order. -/
def Memory.write : Memory → Nat → Byte → Memory
  | [], a, b => [(a, b)]
  | (k, c) :: m, a, b =>
    bif Nat.blt a k then (a, b) :: (k, c) :: m
    else bif Nat.beq a k then (a, b) :: m
    else (k, c) :: Memory.write m a b

/-- List the bytes of a value at rising addresses from `a` on (R52). -/
def Memory.writeBytes : Memory → Nat → List Byte → Memory
  | m, _, [] => m
  | m, a, b :: bs => Memory.writeBytes (Memory.write m a b) (a + 1) bs

/-- The canonical form: addresses strictly rising and inside the store. An unlisted address has no value, so no entry
can equal it. -/
def Memory.wf : Memory → Bool
  | [] => true
  | (k, _) :: m => decide (k < rkBytes) && m.all (fun c => decide (k < c.1)) && Memory.wf m

/-- Every byte of the store is listed: a KEYEXP has completed since the last reset (R23). -/
def Memory.full (m : Memory) : Bool := (List.range rkBytes).all fun a => (Memory.read m a).isSome

/-! ### Access primitives (R52, R53, R54)

The only calls any command makes are at `4*i` with `i <= 43` and at `16*r` with `r <= 10` (R52); the range of RIDX is
checked before a read (R252, R256). -/

/-- `M[a]` (R52). A byte that no KEYEXP has written has a free value (assumption 2). -/
def State.memByte (s : State) (a : Nat) : Byte :=
  (Memory.read s.rk a).getD (Config.unspecifiedRkByte s.rkEra a)

/-- `W[i] = MemRead(4*i, 4)` (R53): the byte at the lowest address is the most significant. -/
def State.rkWord (s : State) (i : Nat) : Word :=
  mkWord (s.memByte (4 * i)) (s.memByte (4 * i + 1)) (s.memByte (4 * i + 2)) (s.memByte (4 * i + 3))

/-- `RKEY(r) = MemRead(16*r, 16)` (R54). -/
def State.rkey (s : State) (r : Nat) : Block := mkBlock fun i => s.memByte (16 * r + i.val)

/-- `W[i] <- v`, that is `MemWrite(4*i, 4, v)` (R52, R53). -/
def State.writeRkWord (s : State) (i : Nat) (v : Word) : State :=
  { s with rk := s.rk.writeBytes (4 * i) [wordByte v 0, wordByte v 1, wordByte v 2, wordByte v 3] }

/-! ### Starting, sequencing and completing a command (R31, R228) -/

/-- A command that does not fault starts: `BUSY <- 1` (R31). -/
def State.begin (s : State) : State := { s with busy := true }

/-- Completion: `RND <- 0; BUSY <- 0` (R31). -/
def State.complete (s : State) : State := { s with rnd := 0#4, busy := false }

/-- The fixed loop of R228: for each value `RND` takes, in order, the work done at that value. -/
def runRounds (work : State → State) : List (BitVec 4) → State → State
  | [], s => s
  | r :: rs, s => runRounds work rs (work { s with rnd := r })

/-- A result goes to the accumulator at completion (R77). -/
def State.finish (s : State) (v : Block) : State := { s with acc := v, rnd := 0#4, busy := false }

/-! ### Faults (R250 to R257) -/

/-- Fault entry (R256): `ERR <- 1; ECAUSE <- c` and nothing else. -/
def State.faultEntry (s : State) (c : Cause) : State := { s with err := true, ecause := c.code }

/-- The fault of a command that needs a key (R253). -/
def keyFault (s : State) : Option Cause := if s.kv then none else some .noKey

/-- The fault of a command that names a round key: RIDX_RANGE before NO_KEY (R252, R253, R254). -/
def indexKeyFault (ridx : Nat) (s : State) : Option Cause :=
  if 10 < ridx then some .ridxRange else keyFault s

/-- Take the fault if there is one, else do the work (R31, R254). -/
def checked (fault : Option Cause) (s : State) (work : State → State) : Host.Outcome State Fault Refusal :=
  match fault with
  | some c => .next (s.faultEntry c)
  | none => .next (work s)

/-- The fault a decoded command takes, decided from the command and `KV` alone (R250, R254). -/
def faultOf (i : Instr) (s : State) : Option Cause :=
  match i with
  | .gf2 _ => none
  | .gf3 _ => none
  | .gf4 _ => none
  | .gf8 _ => none
  | .gf9 _ => none
  | .gf11 _ => none
  | .gf13 _ => none
  | .gf14 _ => none
  | .sboxb _ => none
  | .isboxb _ => none
  | .subw _ => none
  | .mixcol _ => none
  | .imixcol _ => none
  | .keyexp _ => none
  | .rdrk ridx => indexKeyFault ridx s
  | .ark _ ridx => indexKeyFault ridx s
  | .subbytes _ => none
  | .isubbytes _ => none
  | .shiftrows _ => none
  | .ishiftrows _ => none
  | .mixcols _ => none
  | .imixcols _ => none
  | .enc _ => keyFault s
  | .dec _ => keyFault s

/-- What R254's `check` answers. -/
inductive Verdict where
  | fault (c : Cause)
  | execute (i : Instr)
deriving DecidableEq, Repr

/-- `check(cw, KV)` (R254) on the sampled command word. -/
def State.check (s : State) : Verdict :=
  match decode s.port.cw with
  | .error _ => .fault .illegalCmd
  | .ok i =>
    match faultOf i s with
    | some c => .fault c
    | none => .execute i

/-! ### Reset (R35, R280), the only way out of the locked state (R257) -/

/-- The state update of an edge with `rst = 1` (R280). The store keeps no defined byte and its unspecified contents are
new ones: neither cleared nor kept (R281, assumption 2). -/
def State.applyReset (s : State) : State :=
  { s with
    acc := 0#128, rk := [], kv := false, busy := false, err := false, ecause := 0#2, rnd := 0#4,
    rkEra := Config.rkEraAfterReset s.edge s.rkEra s.rk s.acc }

/-! ### The host's ports (R29, R30) -/

/-- The host asserts neither `rst` nor `cmd_valid` and leaves `cw` and `din` as they are (assumption 1). -/
def HostPort.idle (p : HostPort) : HostPort := { p with rst := false, cmdValid := false }

/-- The host drives what it drives next; with nothing left it presents no command (assumption 1). -/
def State.advance (s : State) : State :=
  match s.host with
  | [] => { s with port := s.port.idle, edge := s.edge + 1 }
  | p :: rest => { s with port := p, host := rest, edge := s.edge + 1 }

/-- A command is accepted at this edge (R30): `rst = 0`, `cmd_valid = 1` and `cmd_ready = 1`. -/
def State.accepts (s : State) : Bool := !s.port.rst && s.port.cmdValid && s.cmdReady

/-- The host presents a command word and no reset; `din` stays as it is. -/
def State.present (s : State) (cw : CmdWord) : State :=
  { s with port := { s.port with rst := false, cmdValid := true, cw := cw } }

end Sys2Proof.Machine
end

