-- ==== Sys2Proof/Machine/Operands.lean ====
section
/-! DEFINITION. The operand forms (spec/30_encoding.md R75, R76), the result forms (R77) and the four shapes of a command that
reads no round key. -/

namespace Sys2Proof.Machine

/-- The data operand `X` (R75): `din` as sampled, or `ACC` as it is at acceptance. -/
def State.operand (s : State) : Src → Block
  | .din => s.port.din
  | .acc => s.acc

/-- The byte operand `X[7:0]` (R76). -/
def State.byteOperand (s : State) (src : Src) : Byte := (s.operand src).extractLsb' 0 8

/-- The word operand `X[31:0]` (R76). -/
def State.wordOperand (s : State) (src : Src) : Word := (s.operand src).extractLsb' 0 32

/-- `zext_128` of a byte result (R77). -/
def zextByte (y : Byte) : Block := y.setWidth 128

/-- `zext_128` of a word result (R77). -/
def zextWord (w : Word) : Block := w.setWidth 128

/-- A command on one byte: `ACC <- zext_128(f(X[7:0]))`. -/
def byteCommand (f : Byte → Byte) (src : Src) (s : State) : Host.Outcome State Fault Refusal :=
  .next (s.finish (zextByte (f (s.byteOperand src))))

/-- A command on one word: `ACC <- zext_128(f(X[31:0]))`. -/
def wordCommand (f : Word → Word) (src : Src) (s : State) : Host.Outcome State Fault Refusal :=
  .next (s.finish (zextWord (f (s.wordOperand src))))

/-- A command on the whole block: `ACC <- f(X)`. -/
def blockCommand (f : Block → Block) (src : Src) (s : State) : Host.Outcome State Fault Refusal :=
  .next (s.finish (f (s.operand src)))

end Sys2Proof.Machine
end

