-- ==== Sys2Proof/Machine/KeySchedule.lean ====
section
/-! DEFINITION. The key schedule expander (spec/43_key_schedule.md): the function rules R170 to R174 and the commands KEYEXP
(R176), which runs the word-by-word loop of R175 on the round-key store, and RDRK (R177). -/

namespace Sys2Proof.Machine

/-- The eleven round keys `K0, ..., K10` as a function of the index; no rule applies it above 10 (R174). -/
abbrev Schedule := Nat → Block

/-- `RC[r]` for `r = 1..10` (R170). There is no other entry, and no rule reads one. -/
def roundConst : Nat → Byte
  | 1 => 0x01#8
  | 2 => 0x02#8
  | 3 => 0x04#8
  | 4 => 0x08#8
  | 5 => 0x10#8
  | 6 => 0x20#8
  | 7 => 0x40#8
  | 8 => 0x80#8
  | 9 => 0x1B#8
  | 10 => 0x36#8
  | _ => 0x00#8

/-- `RotWord(w)` (R171): rotate left by one byte. -/
def rotWord (w : Word) : Word := mkWord (wordByte w 1) (wordByte w 2) (wordByte w 3) (wordByte w 0)

/-- `G(w, r)` (R172): rotate, substitute, XOR the round constant into the most significant byte. -/
def gWord (w : Word) (r : Nat) : Word := subWord (rotWord w) ^^^ ((roundConst r).setWidth 32 <<< 24)

/-- `KeyRound(p, r)` (R173): round key `r` from round key `r - 1`. -/
def keyRound (p : Block) (r : Nat) : Block :=
  let n0 := col p 0 ^^^ gWord (col p 3) r
  let n1 := col p 1 ^^^ n0
  let n2 := col p 2 ^^^ n1
  let n3 := col p 3 ^^^ n2
  ofCols n0 n1 n2 n3

/-- `Expand(k)` (R174): `K0 = k`, `Kr = KeyRound(K(r-1), r)`. -/
def expand (k : Block) : Schedule
  | 0 => k
  | r + 1 => keyRound (expand k r) (r + 1)

/-- The values RND takes while KEYEXP runs (R228). -/
def keyexpOrder : List (BitVec 4) := [1, 2, 3, 4, 5, 6, 7, 8, 9, 10]

/-- The four words KEYEXP writes at `RND = r` (R176), each from words already in the store. -/
def keyexpRound (s : State) : State :=
  let r := s.rnd.toNat
  let t := gWord (s.rkWord (4 * r - 1)) r
  let s0 := s.writeRkWord (4 * r) (s.rkWord (4 * r - 4) ^^^ t)
  let s1 := s0.writeRkWord (4 * r + 1) (s0.rkWord (4 * r - 3) ^^^ s0.rkWord (4 * r))
  let s2 := s1.writeRkWord (4 * r + 2) (s1.rkWord (4 * r - 2) ^^^ s1.rkWord (4 * r + 1))
  s2.writeRkWord (4 * r + 3) (s2.rkWord (4 * r - 1) ^^^ s2.rkWord (4 * r + 2))

/-- The first four words of the store are the key (R175, R176). -/
def State.loadKey (s : State) (k : Block) : State :=
  (((s.writeRkWord 0 (col k 0)).writeRkWord 1 (col k 1)).writeRkWord 2 (col k 2)).writeRkWord 3 (col k 3)

/-- KEYEXP (R176): expand the key `X` into the store and set KV; `ACC` is not changed. -/
def execKeyexp (src : Src) (s : State) : Host.Outcome State Fault Refusal :=
  .next { (runRounds keyexpRound keyexpOrder (s.begin.loadKey (s.operand src))).complete with kv := true }

/-- RDRK (R177): read one round key into `ACC`. -/
def execRdrk (ridx : Nat) (s : State) : Host.Outcome State Fault Refusal :=
  checked (indexKeyFault ridx s) s fun s => s.finish (s.rkey ridx)

end Sys2Proof.Machine
end

