-- ==== Sys2Proof/Machine/Gf256.lean ====
section
/-! DEFINITION. The GF(2^8) constant multiplier (spec/40_gf256.md): the function rules R101 to R109 and R118, and the
commands GF2 to GF14 (R110 to R117). Addition in the field is XOR (R100). -/

namespace Sys2Proof.Machine

/-- `Dbl(x)` (R101): shift left inside 8 bits, XOR `0x1B` if bit 7 of the input was set. -/
def dbl (x : Byte) : Byte := (x <<< 1) ^^^ (if x.getLsbD 7 then 0x1B#8 else 0x00#8)

/-- R102. -/
def mul2 (x : Byte) : Byte := dbl x

/-- R103. -/
def mul3 (x : Byte) : Byte := dbl x ^^^ x

/-- R104. -/
def mul4 (x : Byte) : Byte := dbl (dbl x)

/-- R105. -/
def mul8 (x : Byte) : Byte := dbl (dbl (dbl x))

/-- R106. -/
def mul9 (x : Byte) : Byte := mul8 x ^^^ x

/-- R107. -/
def mul11 (x : Byte) : Byte := mul8 x ^^^ mul2 x ^^^ x

/-- R108. -/
def mul13 (x : Byte) : Byte := mul8 x ^^^ mul4 x ^^^ x

/-- R109. -/
def mul14 (x : Byte) : Byte := mul8 x ^^^ mul4 x ^^^ mul2 x

/-- The loop of R118 over the bit numbers still to come: `p` is the sum so far, `d` the next doubling of `x`. -/
def gfmulLoop (a : Byte) : List Nat → Byte → Byte → Byte
  | [], p, _ => p
  | i :: is, p, d => gfmulLoop a is (if a.getLsbD i then p ^^^ d else p) (dbl d)

/-- `GFmul(a, x)` (R118): the product of two field elements; no command computes it for a general `a`. -/
def gfmul (a x : Byte) : Byte := gfmulLoop a [0, 1, 2, 3, 4, 5, 6, 7] 0#8 x

/-- GF2 (R110). -/
def execGf2 (src : Src) (s : State) : Host.Outcome State Fault Refusal := byteCommand mul2 src s

/-- GF3 (R111). -/
def execGf3 (src : Src) (s : State) : Host.Outcome State Fault Refusal := byteCommand mul3 src s

/-- GF4 (R112). -/
def execGf4 (src : Src) (s : State) : Host.Outcome State Fault Refusal := byteCommand mul4 src s

/-- GF8 (R113). -/
def execGf8 (src : Src) (s : State) : Host.Outcome State Fault Refusal := byteCommand mul8 src s

/-- GF9 (R114). -/
def execGf9 (src : Src) (s : State) : Host.Outcome State Fault Refusal := byteCommand mul9 src s

/-- GF11 (R115). -/
def execGf11 (src : Src) (s : State) : Host.Outcome State Fault Refusal := byteCommand mul11 src s

/-- GF13 (R116). -/
def execGf13 (src : Src) (s : State) : Host.Outcome State Fault Refusal := byteCommand mul13 src s

/-- GF14 (R117). -/
def execGf14 (src : Src) (s : State) : Host.Outcome State Fault Refusal := byteCommand mul14 src s

end Sys2Proof.Machine
end

