-- ==== Sys2Proof/Machine/MixColumns.lean ====
section
/-! DEFINITION. The MixColumns circulant-matrix multiplier (spec/42_mixcolumns.md): the column functions R152, R153, the
matrices R150, R151 that they multiply by, and the commands MIXCOL, IMIXCOL (R156, R157). -/

namespace Sys2Proof.Machine

/-- The circulant matrix whose row 0 is `c` and whose row `i` is row 0 rotated right by `i` (R150):
`M[i][j] = c[(j - i) mod 4]`. -/
def circulant (c : Fin 4 → Byte) (i j : Fin 4) : Byte := c (j - i)

/-- Row 0 of the forward matrix (R150): `[2, 3, 1, 1]`. -/
def rowF : Fin 4 → Byte
  | 0 => 2#8
  | 1 => 3#8
  | 2 => 1#8
  | 3 => 1#8

/-- Row 0 of the inverse matrix (R151): `[14, 11, 13, 9]`. -/
def rowI : Fin 4 → Byte
  | 0 => 14#8
  | 1 => 11#8
  | 2 => 13#8
  | 3 => 9#8

/-- The forward matrix `MF` (R150). -/
def matrixF : Fin 4 → Fin 4 → Byte := circulant rowF

/-- The inverse matrix `MI` (R151). -/
def matrixI : Fin 4 → Fin 4 → Byte := circulant rowI

/-- `MixColumn(w)` (R152): every output byte is computed from the four input bytes. -/
def mixColumn (w : Word) : Word :=
  let a0 := wordByte w 0
  let a1 := wordByte w 1
  let a2 := wordByte w 2
  let a3 := wordByte w 3
  mkWord
    (mul2 a0 ^^^ mul3 a1 ^^^ a2 ^^^ a3)
    (a0 ^^^ mul2 a1 ^^^ mul3 a2 ^^^ a3)
    (a0 ^^^ a1 ^^^ mul2 a2 ^^^ mul3 a3)
    (mul3 a0 ^^^ a1 ^^^ a2 ^^^ mul2 a3)

/-- `InvMixColumn(w)` (R153). -/
def invMixColumn (w : Word) : Word :=
  let a0 := wordByte w 0
  let a1 := wordByte w 1
  let a2 := wordByte w 2
  let a3 := wordByte w 3
  mkWord
    (mul14 a0 ^^^ mul11 a1 ^^^ mul13 a2 ^^^ mul9 a3)
    (mul9 a0 ^^^ mul14 a1 ^^^ mul11 a2 ^^^ mul13 a3)
    (mul13 a0 ^^^ mul9 a1 ^^^ mul14 a2 ^^^ mul11 a3)
    (mul11 a0 ^^^ mul13 a1 ^^^ mul9 a2 ^^^ mul14 a3)

/-- MIXCOL (R156). -/
def execMixcol (src : Src) (s : State) : Host.Outcome State Fault Refusal := wordCommand mixColumn src s

/-- IMIXCOL (R157). -/
def execImixcol (src : Src) (s : State) : Host.Outcome State Fault Refusal := wordCommand invMixColumn src s

end Sys2Proof.Machine
end

