-- ==== Sys2Proof/Machine/RoundTransform.lean ====
section
/-! DEFINITION. The round transforms (spec/44_round_transform.md): the function rules R190 to R196 and the commands ARK,
SUBBYTES, ISUBBYTES, SHIFTROWS, ISHIFTROWS, MIXCOLS, IMIXCOLS (R200 to R206). -/

namespace Sys2Proof.Machine

/-- `AddRoundKey(s, k)` (R190). -/
def addRoundKey (v k : Block) : Block := v ^^^ k

/-- `ShiftRows(s)` (R191): `B(ShiftRows(s), i) = B(s, (i + 4*(i mod 4)) mod 16)`. -/
def shiftRows (v : Block) : Block :=
  mkBlock fun i => blockByte v (Fin.ofNat 16 (i.val + 4 * (i.val % 4)))

/-- `InvShiftRows(s)` (R196): `B(InvShiftRows(s), i) = B(s, (i - 4*(i mod 4)) mod 16)`, with 16 added so that the
subtraction stays in the naturals. -/
def invShiftRows (v : Block) : Block :=
  mkBlock fun i => blockByte v (Fin.ofNat 16 (i.val + 16 - 4 * (i.val % 4)))

/-- `SubBytes(s)` (R192). -/
def subBytes (v : Block) : Block := subBlock v

/-- `InvSubBytes(s)` (R193). -/
def invSubBytes (v : Block) : Block := invSubBlock v

/-- `MixColumns(s)` (R194): each column by itself. -/
def mixColumns (v : Block) : Block :=
  ofCols (mixColumn (col v 0)) (mixColumn (col v 1)) (mixColumn (col v 2)) (mixColumn (col v 3))

/-- `InvMixColumns(s)` (R195). -/
def invMixColumns (v : Block) : Block :=
  ofCols (invMixColumn (col v 0)) (invMixColumn (col v 1)) (invMixColumn (col v 2)) (invMixColumn (col v 3))

/-- ARK (R200): add round key RIDX to the operand. -/
def execArk (src : Src) (ridx : Nat) (s : State) : Host.Outcome State Fault Refusal :=
  checked (indexKeyFault ridx s) s fun s => s.finish (addRoundKey (s.operand src) (s.rkey ridx))

/-- SUBBYTES (R201). -/
def execSubbytes (src : Src) (s : State) : Host.Outcome State Fault Refusal := blockCommand subBytes src s

/-- ISUBBYTES (R202). -/
def execIsubbytes (src : Src) (s : State) : Host.Outcome State Fault Refusal := blockCommand invSubBytes src s

/-- SHIFTROWS (R203). -/
def execShiftrows (src : Src) (s : State) : Host.Outcome State Fault Refusal := blockCommand shiftRows src s

/-- ISHIFTROWS (R204). -/
def execIshiftrows (src : Src) (s : State) : Host.Outcome State Fault Refusal := blockCommand invShiftRows src s

/-- MIXCOLS (R205). -/
def execMixcols (src : Src) (s : State) : Host.Outcome State Fault Refusal := blockCommand mixColumns src s

/-- IMIXCOLS (R206). -/
def execImixcols (src : Src) (s : State) : Host.Outcome State Fault Refusal := blockCommand invMixColumns src s

end Sys2Proof.Machine
end

