-- ==== Sys2Proof/Machine/Cipher.lean ====
section
/-! DEFINITION. The round transform sequencer (spec/45_cipher_sequencer.md): the function rules R220 to R223 and the commands
ENC (R224) and DEC (R227), which run the steps with the running state in `ACC` and the step number in `RND` (R228, R229). -/

namespace Sys2Proof.Machine

/-- `EncStep(K, r, s)` (R220). -/
def encStep (K : Schedule) (r : Nat) (v : Block) : Block :=
  if r = 0 then addRoundKey v (K 0)
  else if r = 10 then addRoundKey (shiftRows (subBytes v)) (K 10)
  else addRoundKey (mixColumns (shiftRows (subBytes v))) (K r)

/-- The encryption state `e(r)` (R221). -/
def encState (K : Schedule) (p : Block) : Nat → Block
  | 0 => encStep K 0 p
  | r + 1 => encStep K (r + 1) (encState K p r)

/-- `Encrypt(p, K) = e10` (R221). -/
def encrypt (p : Block) (K : Schedule) : Block := encState K p 10

/-- `DecStep(K, r, s)` (R222). -/
def decStep (K : Schedule) (r : Nat) (v : Block) : Block :=
  if r = 0 then addRoundKey v (K 0)
  else if r = 10 then invSubBytes (invShiftRows (addRoundKey v (K 10)))
  else invSubBytes (invShiftRows (invMixColumns (addRoundKey v (K r))))

/-- The decryption state after the first `n + 1` steps (R223): `d(10 - n)`, and the result for `n = 10`. -/
def decState (K : Schedule) (c : Block) : Nat → Block
  | 0 => decStep K 10 c
  | n + 1 => decStep K (9 - n) (decState K c n)

/-- `Decrypt(c, K)` (R223). -/
def decrypt (c : Block) (K : Schedule) : Block := decState K c 10

/-- The values RND takes while ENC runs (R228). -/
def encOrder : List (BitVec 4) := [0, 1, 2, 3, 4, 5, 6, 7, 8, 9, 10]

/-- The values RND takes while DEC runs (R228). -/
def decOrder : List (BitVec 4) := [10, 9, 8, 7, 6, 5, 4, 3, 2, 1, 0]

/-- The work ENC does at `RND = r` (R229). -/
def encRound (s : State) : State := { s with acc := encStep s.rkey s.rnd.toNat s.acc }

/-- The work DEC does at `RND = r` (R229). -/
def decRound (s : State) : State := { s with acc := decStep s.rkey s.rnd.toNat s.acc }

/-- ENC (R224). -/
def execEnc (src : Src) (s : State) : Host.Outcome State Fault Refusal :=
  checked (keyFault s) s fun s =>
    (runRounds encRound encOrder { s.begin with acc := s.operand src }).complete

/-- DEC (R227). -/
def execDec (src : Src) (s : State) : Host.Outcome State Fault Refusal :=
  checked (keyFault s) s fun s =>
    (runRounds decRound decOrder { s.begin with acc := s.operand src }).complete

end Sys2Proof.Machine
end

