-- ==== Sys2Proof/Machine/Dispatch.lean ====
section
/-! DEFINITION. One arm per command: its meaning. -/

namespace Sys2Proof.Machine

def exec (i : Instr) (s : State) : Host.Outcome State Fault Refusal :=
  match i with
  | .gf2 src => Sys2Proof.Machine.execGf2 src s
  | .gf3 src => Sys2Proof.Machine.execGf3 src s
  | .gf4 src => Sys2Proof.Machine.execGf4 src s
  | .gf8 src => Sys2Proof.Machine.execGf8 src s
  | .gf9 src => Sys2Proof.Machine.execGf9 src s
  | .gf11 src => Sys2Proof.Machine.execGf11 src s
  | .gf13 src => Sys2Proof.Machine.execGf13 src s
  | .gf14 src => Sys2Proof.Machine.execGf14 src s
  | .sboxb src => Sys2Proof.Machine.execSboxb src s
  | .isboxb src => Sys2Proof.Machine.execIsboxb src s
  | .subw src => Sys2Proof.Machine.execSubw src s
  | .mixcol src => Sys2Proof.Machine.execMixcol src s
  | .imixcol src => Sys2Proof.Machine.execImixcol src s
  | .keyexp src => Sys2Proof.Machine.execKeyexp src s
  | .rdrk ridx => Sys2Proof.Machine.execRdrk ridx s
  | .ark src ridx => Sys2Proof.Machine.execArk src ridx s
  | .subbytes src => Sys2Proof.Machine.execSubbytes src s
  | .isubbytes src => Sys2Proof.Machine.execIsubbytes src s
  | .shiftrows src => Sys2Proof.Machine.execShiftrows src s
  | .ishiftrows src => Sys2Proof.Machine.execIshiftrows src s
  | .mixcols src => Sys2Proof.Machine.execMixcols src s
  | .imixcols src => Sys2Proof.Machine.execImixcols src s
  | .enc src => Sys2Proof.Machine.execEnc src s
  | .dec src => Sys2Proof.Machine.execDec src s

end Sys2Proof.Machine
end

