-- ==== Sys2Proof/Machine/Step.lean ====
section
/-! DEFINITION. One step: the step function of spec/60_exceptions.md R265 on what the host drives now (spec/10_state.md R30). An
accepted command is one atomic step (R31), an edge with `rst = 1` is a step, and so is an edge at which nothing is
accepted. -/

namespace Sys2Proof.Machine

/-- After the command or the reset of a step the host drives its ports for the next one. -/
def andAdvance (o : Host.Outcome State Fault Refusal) : Host.Outcome State Fault Refusal :=
  match o with
  | .next t => .next t.advance
  | .fault r => .fault r
  | .refused r => .refused r

/-- The step (R265). Reset wins (R30, R280); an accepted word that does not decode is ILLEGAL_CMD (R251) and one that does
runs; a command presented while `cmd_ready = 0` is refused in the spec's sense: it changes nothing (R30, R257). -/
def step (s : State) : Host.Outcome State Fault Refusal :=
  if s.port.rst then .next s.applyReset.advance
  else if s.accepts then
    match decode s.port.cw with
    | .error _ => .next (s.faultEntry .illegalCmd).advance
    | .ok i => andAdvance (exec i s)
  else .next s.advance

/-- `s` with the host presenting, at the next step, the command word given as a number with bit 0 its least significant
bit; bits from `nbits` up are 0. The step runs it when the core is ready, as it is after reset (assumption 5). -/
def State.withFetchWord (s : State) (nbits w : Nat) : State :=
  s.present (BitVec.ofNat 16 (w % 2 ^ nbits))

end Sys2Proof.Machine
end

