-- ==== Sys2Proof/Machine/Assembly.lean ====
section
/-! DEFINITION. The command syntax of spec/30_encoding.md R84 and R85, after it is cut into tokens: a mnemonic, an optional
round index and an optional operand. It serves to write down commands; the core knows nothing of it. -/

namespace Sys2Proof.Machine

/-- `operand := "#" hexdigits | "ACC"` (R84); the digits most significant first. -/
inductive AsmOperand where
  | literal (digits : List (Fin 16))
  | acc
deriving DecidableEq, Repr

/-- One line of a program (R84). -/
structure AsmLine where
  mnemonic : String
  ridx : Option Nat
  operand : Option AsmOperand
deriving DecidableEq, Repr

/-- The mnemonics of format D, and `DBL`, the other spelling of `GF2` (R85). -/
def asmFormatD : List (String × (Src → Instr)) :=
  [("GF2", .gf2), ("DBL", .gf2), ("GF3", .gf3), ("GF4", .gf4), ("GF8", .gf8),
   ("GF9", .gf9), ("GF11", .gf11), ("GF13", .gf13), ("GF14", .gf14),
   ("SBOXB", .sboxb), ("ISBOXB", .isboxb), ("SUBW", .subw),
   ("MIXCOL", .mixcol), ("IMIXCOL", .imixcol), ("KEYEXP", .keyexp),
   ("SUBBYTES", .subbytes), ("ISUBBYTES", .isubbytes), ("SHIFTROWS", .shiftrows),
   ("ISHIFTROWS", .ishiftrows), ("MIXCOLS", .mixcols), ("IMIXCOLS", .imixcols),
   ("ENC", .enc), ("DEC", .dec)]

/-- The number a string of hex digits stands for, most significant digit first. -/
def hexValue (digits : List (Fin 16)) : Nat := digits.foldl (fun v d => 16 * v + d.val) 0

/-- SRC and `din` of an operand (R84): a literal is zero-extended on the left to 128 bits, so it has at most 32 digits;
with `ACC` the data input is not used and is shown as 0. -/
def AsmOperand.source : AsmOperand → Option (Src × Block)
  | .literal digits =>
    if digits ≠ [] ∧ digits.length ≤ 32 then some (.din, BitVec.ofNat 128 (hexValue digits)) else none
  | .acc => some (.acc, 0#128)

/-- The command a line stands for, with the value presented on `din` (R84). -/
def AsmLine.command (l : AsmLine) : Option (Instr × Block) :=
  match asmFormatD.lookup l.mnemonic with
  | some build =>
    match l.ridx, l.operand with
    | none, some o => o.source.map fun p => (build p.1, p.2)
    | _, _ => none
  | none =>
    if l.mnemonic = "ARK" then
      match l.ridx, l.operand with
      | some r, some o => if r ≤ 15 then o.source.map fun p => (.ark p.1 r, p.2) else none
      | _, _ => none
    else if l.mnemonic = "RDRK" then
      match l.ridx, l.operand with
      | some r, none => if r ≤ 15 then some (.rdrk r, 0#128) else none
      | _, _ => none
    else none

/-- The encoding of a line as `cw / din` (R84). -/
def AsmLine.assemble (l : AsmLine) : Option (CmdWord × Block) :=
  l.command.map fun p => (encode p.1, p.2)

end Sys2Proof.Machine
end

