-- ==== Sys2Proof/Machine/Clock.lean ====
section
/-! DEFINITION. The clock-level view (spec/10_state.md R30, R31; spec/70_reset_and_hazards.md R280, R284, R285, R288): a command is accepted
at one edge, `BUSY` is 1 for `LAT(op)` edges, and everything it writes is committed at the last of them. `step` is the
command-level view of the same core (R265, decision D29). -/

namespace Sys2Proof.Machine

/-- A command in progress: what was sampled at acceptance (R30), and how many edges are left before the one that
commits. -/
structure Flight where
  instr : Instr
  sampled : HostPort
  left : Nat
deriving DecidableEq, Repr

/-- The core between two clock edges. -/
structure Clocked where
  core : State
  flight : Option Flight
deriving DecidableEq, Repr

/-- The edges a command accepted now takes beyond the one every command takes (R31, R288): `LAT(op) = latency + 1`. -/
def State.latency (s : State) : Nat :=
  Config.extraLatency s.edge s.port.cw s.port.din s.acc s.rkEra s.rk

/-- `dout` (R29) at the clock level: while a command is in progress an unspecified value, which may depend on the sampled
command (R285, assumption 3). -/
def Clocked.dout (c : Clocked) : Block :=
  match c.flight with
  | some f => Config.doutWhileBusy c.core.edge f.sampled.cw f.sampled.din c.core.acc c.core.rkEra c.core.rk
  | none => c.core.dout

/-- The completing edge (R31): all of the command's update at once, from the values sampled at acceptance. The host's
ports are what they are now. -/
def Flight.commit (f : Flight) (s : State) : Host.Outcome State Fault Refusal :=
  match exec f.instr { s with port := f.sampled } with
  | .next t => .next { t with port := s.port }
  | .fault r => .fault r
  | .refused r => .refused r

/-- One clock edge: reset above all (R280, the command in progress is abandoned), then the command in progress, then
acceptance (R30) with the checks of R254. While a command is in progress `ACC`, `RK`, `KV` and `RND` keep their old
values (R31; U6 lets `ACC` and `RND` do so). -/
def Clocked.tick (c : Clocked) : Host.Outcome Clocked Fault Refusal :=
  if c.core.port.rst then .next ⟨c.core.applyReset.advance, none⟩
  else
    match c.flight with
    | some f =>
      match f.left with
      | n + 1 => .next ⟨c.core.advance, some { f with left := n }⟩
      | 0 =>
        match f.commit c.core with
        | .next t => .next ⟨t.advance, none⟩
        | .fault r => .fault r
        | .refused r => .refused r
    | none =>
      if c.core.accepts then
        match c.core.check with
        | .fault cause => .next ⟨(c.core.faultEntry cause).advance, none⟩
        | .execute i => .next ⟨c.core.begin.advance, some ⟨i, c.core.port, c.core.latency⟩⟩
      else .next ⟨c.core.advance, none⟩

/-- `n` clock edges. -/
def Clocked.run : Nat → Clocked → Host.Outcome Clocked Fault Refusal
  | 0, c => .next c
  | n + 1, c =>
    match c.tick with
    | .next d => Clocked.run n d
    | .fault r => .fault r
    | .refused r => .refused r

/-- `n` edges of the host driving its ports and nothing else. -/
def State.advanceBy (s : State) : Nat → State
  | 0 => s
  | n + 1 => s.advance.advanceBy n

end Sys2Proof.Machine
end

