-- ==== Sys2Proof/Safety.lean ====
section
/-! DEFINITION. What every state of a run satisfies (spec/60_exceptions.md R265; spec/43_key_schedule.md R178; spec/10_state.md R24, R26,
R27), what a safe run is, and a run of commands accepted one after another (spec/10_state.md R30). -/

namespace Sys2Proof.Machine

/-- The invariant of the command-level view: it holds after reset and every step keeps it. -/
structure Inv (s : State) : Prop where
  /-- The store is in its canonical form. -/
  storeWf : s.rk.wf = true
  /-- `BUSY` is 0 between commands (R24). -/
  notBusy : s.busy = false
  /-- `RND` is 0 whenever `BUSY` is 0 (R27). -/
  roundZero : s.rnd = 0#4
  /-- `ECAUSE = 0` exactly when `ERR = 0` (R26). -/
  causeIffErr : s.ecause = 0#2 ↔ s.err = false
  /-- When `KV = 1` all 176 bytes are defined and they are the schedule of round key 0 (R23, R178). -/
  keyedStore : s.kv = true → s.rk.full = true ∧ ∀ r, r ≤ 10 → s.rkey r = expand (s.rkey 0) r

/-- The invariant of the clock-level view: the state with `BUSY` cleared satisfies `Inv`, and `BUSY` is 1 exactly while
a command that was checked at acceptance is in progress. -/
structure Clocked.Inv (c : Clocked) : Prop where
  coreInv : Machine.Inv { c.core with busy := false }
  busyIff : c.core.busy = c.flight.isSome
  flightChecked : ∀ f, c.flight = some f →
    c.core.err = false ∧ decode f.sampled.cw = .ok f.instr ∧ faultOf f.instr c.core = none

/-- A run is safe while no fault has locked the core (R25, R257). -/
def Safe (s : State) : Prop := s.err = false

/-- Commands accepted one after another, each completing before the next is accepted (R30), all with the data input
`s.port.din`. -/
def runCommands : List Instr → State → Host.Outcome State Fault Refusal
  | [], s => .next s
  | i :: is, s =>
    match exec i s with
    | .next t => runCommands is t
    | .fault r => .fault r
    | .refused r => .refused r

end Sys2Proof.Machine
end

