-- ==== Sys2Proof/Certificates/Slice0/Obligations.lean ====
section
/-! DEFINITION. The statements about this model, for the provers. Each docstring names the rules of spec/ it is about. -/

open Sys2Proof Sys2Proof.Machine

/-! ### Encoding -/

/-- Words of every unit decode to the commands that spec/95_test_vectors.md V17 lists, and the illegal words beside them
are refused (R80, R81). The spec says only ILLEGAL: the reason the decoder names for each, that of the first test of
R80 that fails, is the model's choice (log entry 10). -/
def Obligations.SampleWordsDecode : Prop :=
  decode 0x1200#16 = .ok (.gf2 .din) ∧ decode 0x1280#16 = .ok (.gf2 .acc) ∧
  decode 0x1E80#16 = .ok (.gf14 .acc) ∧ decode 0x2000#16 = .ok (.sboxb .din) ∧
  decode 0x2280#16 = .ok (.subw .acc) ∧ decode 0x3100#16 = .ok (.imixcol .din) ∧
  decode 0x4080#16 = .ok (.keyexp .acc) ∧ decode 0x410A#16 = .ok (.rdrk 10) ∧
  decode 0x508A#16 = .ok (.ark .acc 10) ∧ decode 0x500F#16 = .ok (.ark .din 15) ∧
  decode 0x5780#16 = .ok (.imixcols .acc) ∧ decode 0x6000#16 = .ok (.enc .din) ∧
  decode 0x6180#16 = .ok (.dec .acc) ∧
  decode 0x4180#16 = .error .srcBit ∧ decode 0x5201#16 = .error .indexBits ∧
  decode 0x6010#16 = .error .reservedBits ∧ decode 0x5100#16 = .error (.unusedOp 0x51#8) ∧
  decode 0x0000#16 = .error (.unusedOp 0x00#8) ∧ decode 0xFFFF#16 = .error .reservedBits

/-- Decoding the word of a well-formed command gives the command back, for every command and every operand. -/
def Obligations.DecodeAfterEncode : Prop :=
  ∀ i : Instr, WellFormed i → decode (encode i) = .ok i

/-- A word decodes to one command only and that command encodes to the word: no two words share a command. -/
def Obligations.EncodeAfterDecode : Prop :=
  ∀ (cw : CmdWord) (i : Instr), decode cw = .ok i → WellFormed i ∧ encode i = cw

/-- The match and mask columns of R79: a word decodes to a command of a row exactly when its bits under the row's mask
are the row's pattern. -/
def Obligations.OpcodeTableMasks : Prop :=
  (∀ (cw : CmdWord) (i : Instr), decode cw = .ok i → cw &&& i.row.mask = i.row.pattern) ∧
  (∀ (cw : CmdWord) (j : Instr), cw &&& j.row.mask = j.row.pattern →
    ∃ i, decode cw = .ok i ∧ i.row = j.row)

/-- R79: the mnemonic, match and mask columns of the opcode table, row by row, whatever the operands of the command. -/
def Obligations.OpcodeTableRows : Prop :=
  ∀ (src : Src) (ridx : Nat),
    [Instr.gf2 src, .gf3 src, .gf4 src, .gf8 src, .gf9 src, .gf11 src, .gf13 src, .gf14 src, .sboxb src, .isboxb src,
      .subw src, .mixcol src, .imixcol src, .keyexp src, .rdrk ridx, .ark src ridx, .subbytes src, .isubbytes src,
      .shiftrows src, .ishiftrows src, .mixcols src, .imixcols src, .enc src, .dec src].map
      (fun i => (i.row.mnemonic, i.row.pattern, i.row.mask)) =
    [("GF2", 0x1200#16, 0xFF7F#16), ("GF3", 0x1300#16, 0xFF7F#16), ("GF4", 0x1400#16, 0xFF7F#16),
      ("GF8", 0x1800#16, 0xFF7F#16), ("GF9", 0x1900#16, 0xFF7F#16), ("GF11", 0x1B00#16, 0xFF7F#16),
      ("GF13", 0x1D00#16, 0xFF7F#16), ("GF14", 0x1E00#16, 0xFF7F#16), ("SBOXB", 0x2000#16, 0xFF7F#16),
      ("ISBOXB", 0x2100#16, 0xFF7F#16), ("SUBW", 0x2200#16, 0xFF7F#16), ("MIXCOL", 0x3000#16, 0xFF7F#16),
      ("IMIXCOL", 0x3100#16, 0xFF7F#16), ("KEYEXP", 0x4000#16, 0xFF7F#16), ("RDRK", 0x4100#16, 0xFFF0#16),
      ("ARK", 0x5000#16, 0xFF70#16), ("SUBBYTES", 0x5200#16, 0xFF7F#16), ("ISUBBYTES", 0x5300#16, 0xFF7F#16),
      ("SHIFTROWS", 0x5400#16, 0xFF7F#16), ("ISHIFTROWS", 0x5500#16, 0xFF7F#16), ("MIXCOLS", 0x5600#16, 0xFF7F#16),
      ("IMIXCOLS", 0x5700#16, 0xFF7F#16), ("ENC", 0x6000#16, 0xFF7F#16), ("DEC", 0x6100#16, 0xFF7F#16)]

/-- R78 and R81: a one in `cw[6:4]`, in `cw[3:0]` of a format D word or in `cw[7]` of an RDRK word makes the word
ILLEGAL, and so does an OP value that is not in the table. -/
def Obligations.ReservedEncodingsAreIllegal : Prop :=
  (∀ cw : CmdWord, reservedField cw ≠ 0#3 → ∃ e, decode cw = .error e) ∧
  (∀ cw : CmdWord, opField cw ∈ formatD.map Prod.fst → ridxField cw ≠ 0#4 → ∃ e, decode cw = .error e) ∧
  (∀ cw : CmdWord, opField cw = 0x41#8 → cw.getLsbD 7 = true → ∃ e, decode cw = .error e) ∧
  (∀ cw : CmdWord, opField cw ∉ formatD.map Prod.fst → opField cw ≠ 0x41#8 → opField cw ≠ 0x50#8 →
    ∃ e, decode cw = .error e)

/-! ### The step -/

/-- R265 with R30: where the host presents a word that decodes to `i` and the core accepts it, the step is `exec i`, after
which the host drives its ports for the next step; nothing else is changed by that. The order in which the host's
list is used, and what it drives when nothing is left, is the model's choice (log entry 1). -/
def Obligations.StepRunsTheDecodedCommand : Prop :=
  (∀ (s : State) (i : Instr), s.port.rst = false → s.port.cmdValid = true → s.busy = false → s.err = false →
    decode s.port.cw = .ok i → ∃ t, exec i s = .next t ∧ step s = .next t.advance) ∧
  (∀ t : State, ∃ p h n, t.advance = { t with port := p, host := h, edge := n }) ∧
  (∀ (t : State) (p : HostPort) (rest : List HostPort), t.host = p :: rest →
    t.advance.port = p ∧ t.advance.host = rest) ∧
  (∀ t : State, t.host = [] → t.advance.port.rst = false ∧ t.advance.port.cmdValid = false)

/-- A word given as a number, stored where the next step looks for it, is run by that step when the core is ready; only
the input ports differ from `s`, and `din` does not. The core fetches nothing (R27): that a word is placed on the ports,
and what placing it leaves alone, is the model's choice (log entry 5). -/
def Obligations.PresentedWordIsRunNext : Prop :=
  ∀ (s : State) (nbits w : Nat) (i : Instr), s.busy = false → s.err = false → decodeTableWord nbits w = some i →
    step (s.withFetchWord nbits w) = andAdvance (exec i (s.withFetchWord nbits w)) ∧
    (∃ p, s.withFetchWord nbits w = { s with port := p } ∧ p.din = s.port.din)

/-- R30, R265: every step has a next state, whatever the state and whatever the host drives. -/
def Obligations.EveryStepIsDefined : Prop := ∀ s : State, ∃ t, step s = .next t

/-- R30: at an edge without reset at which `cmd_valid = 0` or `cmd_ready = 0` nothing is accepted and nothing changes; the
host goes on driving its ports. -/
def Obligations.NothingAcceptedNothingChanges : Prop :=
  ∀ s : State, s.port.rst = false → (s.port.cmdValid = false ∨ s.busy = true ∨ s.err = true) →
    ∃ t, step s = .next t ∧ t.acc = s.acc ∧ t.rk = s.rk ∧ t.kv = s.kv ∧ t.busy = s.busy ∧ t.err = s.err ∧
      t.ecause = s.ecause ∧ t.rnd = s.rnd ∧ t.rkEra = s.rkEra ∧ ∀ a, t.memByte a = s.memByte a

/-- R280: an edge with `rst = 1`, whatever else the host presents and whatever state the core is in, takes the registers
to zero and leaves every byte of the store with an unspecified value. That this is a free value, under a name the reset
makes anew from the edge, the old contents and `ACC`, is the model's choice (log entry 2). -/
def Obligations.ResetEdge : Prop :=
  ∀ s : State, s.port.rst = true →
    ∃ t, step s = .next t ∧ t.acc = 0#128 ∧ t.kv = false ∧ t.busy = false ∧ t.err = false ∧ t.ecause = 0#2 ∧
      t.rnd = 0#4 ∧ (∀ a, t.memByte a = Config.unspecifiedRkByte t.rkEra a) ∧
      t.rkEra = Config.rkEraAfterReset s.edge s.rkEra s.rk s.acc ∧ t.cmdReady = true

/-- R35: the values of the state after reset. The last clause, that no byte of the store is listed, is the model's form of
'unspecified' (log entry 2). -/
def Obligations.StateAfterReset : Prop :=
  State.reset.acc = 0#128 ∧ State.reset.kv = false ∧ State.reset.busy = false ∧ State.reset.err = false ∧
  State.reset.ecause = 0#2 ∧ State.reset.rnd = 0#4 ∧ State.reset.cmdReady = true ∧ State.reset.dout = 0#128 ∧
  State.reset.status = 0x00#8 ∧ State.reset.rk = []

/-- R257: while `ERR = 1` every command is refused; after any number of edges without reset the core is as the fault left
it. -/
def Obligations.LockedUntilReset : Prop :=
  ∀ (n : Nat) (s : State), s.err = true → s.port.rst = false → (∀ p ∈ s.host, p.rst = false) →
    ∃ t, Sys2Proof.core.run n s = .next t ∧ t.err = true ∧ t.ecause = s.ecause ∧ t.acc = s.acc ∧ t.rk = s.rk ∧
      t.rkEra = s.rkEra ∧ t.kv = s.kv ∧ t.busy = s.busy ∧ t.rnd = s.rnd ∧ t.cmdReady = false

/-- R254, R256: an accepted command takes the fault `check` names, with `ERR` and `ECAUSE` written and nothing else; where
`check` names none it runs and raises none. The tests come in the order ILLEGAL_CMD, RIDX_RANGE, NO_KEY. -/
def Obligations.CheckDecidesTheFault : Prop :=
  (∀ (s : State) (c : Cause), s.port.rst = false → s.port.cmdValid = true → s.busy = false → s.err = false →
    s.check = .fault c → step s = .next { s with err := true, ecause := c.code }.advance) ∧
  (∀ (s : State) (i : Instr), s.port.rst = false → s.port.cmdValid = true → s.busy = false → s.err = false →
    s.check = .execute i → ∃ t, exec i s = .next t ∧ t.err = false ∧ t.ecause = s.ecause ∧ step s = .next t.advance) ∧
  (∀ s : State, s.check = .fault .illegalCmd ↔ ∃ e, decode s.port.cw = .error e) ∧
  (∀ s : State, s.check = .fault .ridxRange ↔
    ∃ r, 10 < r ∧ (decode s.port.cw = .ok (.rdrk r) ∨ ∃ src, decode s.port.cw = .ok (.ark src r))) ∧
  (∀ s : State, s.check = .fault .noKey ↔ s.kv = false ∧
    ((∃ r, r ≤ 10 ∧ (decode s.port.cw = .ok (.rdrk r) ∨ ∃ src, decode s.port.cw = .ok (.ark src r))) ∨
     ∃ src, decode s.port.cw = .ok (.enc src) ∨ decode s.port.cw = .ok (.dec src)))

/-- R252, R253, R256: RIDX above 10 faults with code 2 whatever `KV` is, and a key command with `KV = 0` faults with
code 3; either writes `ERR` and `ECAUSE` and nothing else. -/
def Obligations.IndexAndKeyFaults : Prop :=
  (∀ (s : State) (r : Nat), 10 < r → exec (.rdrk r) s = .next { s with err := true, ecause := 2#2 }) ∧
  (∀ (s : State) (src : Src) (r : Nat), 10 < r →
    exec (.ark src r) s = .next { s with err := true, ecause := 2#2 }) ∧
  (∀ (s : State) (r : Nat), r ≤ 10 → s.kv = false → exec (.rdrk r) s = .next { s with err := true, ecause := 3#2 }) ∧
  (∀ (s : State) (src : Src) (r : Nat), r ≤ 10 → s.kv = false →
    exec (.ark src r) s = .next { s with err := true, ecause := 3#2 }) ∧
  (∀ (s : State) (src : Src), s.kv = false → exec (.enc src) s = .next { s with err := true, ecause := 3#2 }) ∧
  (∀ (s : State) (src : Src), s.kv = false → exec (.dec src) s = .next { s with err := true, ecause := 3#2 })

/-- R33, R256: the frame of all 24 commands. A command that faults changes `ERR` and `ECAUSE` only; KEYEXP changes the 176
bytes of the store and sets `KV`; every other command changes `ACC`. All that complete leave `RND` and `BUSY` at 0.
Every byte of the store reads as before except the bytes 0 to 175 of a KEYEXP. -/
def Obligations.FrameOfEveryCommand : Prop :=
  ∀ (i : Instr) (s t : State), exec i s = .next t →
    (∀ c, faultOf i s = some c → t = { s with err := true, ecause := c.code }) ∧
    (∀ src, i = .keyexp src → t = { s with rk := t.rk, kv := true, rnd := 0#4, busy := false }) ∧
    (faultOf i s = none → (∀ src, i ≠ .keyexp src) → t = { s with acc := t.acc, rnd := 0#4, busy := false }) ∧
    (∀ a, ((∀ src, i ≠ .keyexp src) ∨ 176 ≤ a) → t.memByte a = s.memByte a)

/-- R23, R25, R26: over one step `KV` is set only by an accepted KEYEXP and cleared only by reset; `ERR` is cleared only by
reset; `ECAUSE` changes only at a fault entry, which also sets `ERR`, or at reset. -/
def Obligations.FlagsChangeOnlyAsStated : Prop :=
  ∀ s t : State, step s = .next t →
    (s.kv = false → t.kv = true → s.accepts = true ∧ ∃ src, decode s.port.cw = .ok (.keyexp src)) ∧
    (s.kv = true → t.kv = false → s.port.rst = true) ∧
    (s.err = true → t.err = false → s.port.rst = true) ∧
    (s.err = false → t.err = true → s.accepts = true ∧ ∃ c, s.check = .fault c ∧ t.ecause = c.code) ∧
    (t.ecause ≠ s.ecause → s.port.rst = true ∨ (s.accepts = true ∧ s.err = false ∧ t.err = true))

/-- R28, R29: the bits of the status view, `cmd_ready`, and `dout` while the core is not busy. -/
def Obligations.StatusAndOutputPorts : Prop :=
  ∀ s : State, s.status.getLsbD 0 = s.busy ∧ s.status.getLsbD 1 = s.kv ∧ s.status.getLsbD 2 = s.err ∧
    s.status.extractLsb' 3 2 = s.ecause ∧ s.status.extractLsb' 5 3 = 0#3 ∧
    (s.cmdReady = true ↔ s.busy = false ∧ s.err = false) ∧ (s.busy = false → s.dout = s.acc)

/-! ### Operands -/

/-- R75: with SRC = 1, and in RDRK, the sampled `din` is ignored: another value on the port gives the same next state
but for that port. -/
def Obligations.AccOperandIgnoresDin : Prop :=
  ∀ (s : State) (d : Block) (i : Instr),
    ((∃ build ∈ formatD.map Prod.snd, i = build .acc) ∨ (∃ r, i = .ark .acc r) ∨ ∃ r, i = .rdrk r) →
    ∃ t, exec i s = .next t ∧
      exec i { s with port := { s.port with din := d } } = .next { t with port := { s.port with din := d } }

/-- R76, R77: a byte command gives the same next state for any two accumulators, and the same accumulator for any two
data inputs, that agree in bits 7:0; its result has zeros above bit 7. The word commands likewise with bits 31:0. -/
def Obligations.NarrowOperands : Prop :=
  (∀ build ∈ [Instr.gf2, .gf3, .gf4, .gf8, .gf9, .gf11, .gf13, .gf14, .sboxb, .isboxb],
    ∀ (s : State) (v w : Block), v.extractLsb' 0 8 = w.extractLsb' 0 8 →
      exec (build .acc) { s with acc := v } = exec (build .acc) { s with acc := w } ∧
      ∃ y : Block, y.extractLsb' 8 120 = 0#120 ∧
        exec (build .din) { s with port := { s.port with din := v } } =
          .next { s with acc := y, rnd := 0#4, busy := false, port := { s.port with din := v } } ∧
        exec (build .din) { s with port := { s.port with din := w } } =
          .next { s with acc := y, rnd := 0#4, busy := false, port := { s.port with din := w } }) ∧
  (∀ build ∈ [Instr.subw, .mixcol, .imixcol],
    ∀ (s : State) (v w : Block), v.extractLsb' 0 32 = w.extractLsb' 0 32 →
      exec (build .acc) { s with acc := v } = exec (build .acc) { s with acc := w } ∧
      ∃ y : Block, y.extractLsb' 32 96 = 0#96 ∧
        exec (build .din) { s with port := { s.port with din := v } } =
          .next { s with acc := y, rnd := 0#4, busy := false, port := { s.port with din := v } } ∧
        exec (build .din) { s with port := { s.port with din := w } } =
          .next { s with acc := y, rnd := 0#4, busy := false, port := { s.port with din := w } })

/-- R4, R5, R6: a block is its sixteen bytes and its four columns, byte `4c + j` of the block is byte `j` of column `c`, and
the element at row `r`, column `c` is byte `r + 4c`. -/
def Obligations.BlockLayout : Prop :=
  (∀ f : Fin 16 → Byte, ∀ i, blockByte (mkBlock f) i = f i) ∧
  (∀ v : Block, mkBlock (blockByte v) = v) ∧
  (∀ v : Block, ofCols (col v 0) (col v 1) (col v 2) (col v 3) = v) ∧
  (∀ (v : Block) (c j : Fin 4) (i : Fin 16), i.val = 4 * c.val + j.val → blockByte v i = wordByte (col v c) j) ∧
  (∀ (v : Block) (r c : Fin 4) (i : Fin 16), i.val = r.val + 4 * c.val → stateElem v r c = blockByte v i) ∧
  (∀ v : Block, blockByte v 0 = v.extractLsb' 120 8 ∧ blockByte v 15 = v.extractLsb' 0 8)

/-! ### The round-key store -/

/-- R52 and R53: byte `j` of `W[i]` is `M[4i+j]`; after `W[i] <- v` the word `i` reads as `v`, its byte at the lowest address
is the most significant byte of `v`, every other word and every byte outside `4i .. 4i+3` reads as before, and the
store keeps its canonical form. The canonical form is the model's (log entry 2), and so is that the clauses hold for `i`
above 43, where the spec has no word (log entry 7). -/
def Obligations.StoreReadAfterWrite : Prop :=
  ∀ (s : State) (i : Nat) (v : Word),
    (∀ j : Fin 4, wordByte (s.rkWord i) j = s.memByte (4 * i + j.val)) ∧
    (s.writeRkWord i v).rkWord i = v ∧
    (s.writeRkWord i v).memByte (4 * i) = v.extractLsb' 24 8 ∧
    (∀ j, j ≠ i → (s.writeRkWord i v).rkWord j = s.rkWord j) ∧
    (∀ a, a < 4 * i ∨ 4 * i + 4 ≤ a → (s.writeRkWord i v).memByte a = s.memByte a) ∧
    (i ≤ 43 → s.rk.wf = true → (s.writeRkWord i v).rk.wf = true)

/-- R51, R54: round key `r` is the words `4r` to `4r + 3`, word `4r` the most significant, and byte `a mod 16` of round key
`a div 16` is the byte at address `a`. -/
def Obligations.RoundKeyIsFourWords : Prop :=
  ∀ s : State,
    (∀ r, s.rkey r = s.rkWord (4 * r) ++ s.rkWord (4 * r + 1) ++ s.rkWord (4 * r + 2) ++ s.rkWord (4 * r + 3)) ∧
    (∀ a, blockByte (s.rkey (a / 16)) (Fin.ofNat 16 (a % 16)) = s.memByte a)

/-- R58: KEYEXP alone writes the store; after any other command it is the same store. -/
def Obligations.OnlyKeyexpWritesTheStore : Prop :=
  ∀ (i : Instr) (s t : State), exec i s = .next t → t.rk ≠ s.rk → ∃ src, i = .keyexp src

/-- R174, R176: KEYEXP completes in every state, with the eleven round keys of `Expand(X)` in the store, `KV` set, every
byte 0 to 175 defined, and `ACC`, `ERR`, `ECAUSE` and everything outside the store as before. -/
def Obligations.KeyexpStoresTheSchedule : Prop :=
  ∀ (s : State) (src : Src), ∃ t, exec (.keyexp src) s = .next t ∧
    (∀ r, r ≤ 10 → t.rkey r = expand (s.operand src) r) ∧ t.rk.full = true ∧
    t = { s with rk := t.rk, kv := true, rnd := 0#4, busy := false } ∧
    (∀ a, 176 ≤ a → t.memByte a = s.memByte a) ∧ (s.rk.wf = true → t.rk.wf = true)

/-- R175, the spec's own inference from R173 and R174: the words of the store after KEYEXP obey the word recurrence, with G
written out byte by byte (R171, R172). -/
def Obligations.ScheduleWordRecurrence : Prop :=
  ∀ (s t : State) (src : Src), exec (.keyexp src) s = .next t →
    t.rkWord 0 = (s.operand src).extractLsb' 96 32 ∧ t.rkWord 1 = (s.operand src).extractLsb' 64 32 ∧
    t.rkWord 2 = (s.operand src).extractLsb' 32 32 ∧ t.rkWord 3 = (s.operand src).extractLsb' 0 32 ∧
    ∀ i, 4 ≤ i → i ≤ 43 →
      t.rkWord i = if i % 4 = 0 then t.rkWord (i - 4) ^^^
          ((sbox (wordByte (t.rkWord (i - 1)) 1) ^^^ roundConst (i / 4)) ++ sbox (wordByte (t.rkWord (i - 1)) 2) ++
            sbox (wordByte (t.rkWord (i - 1)) 3) ++ sbox (wordByte (t.rkWord (i - 1)) 0))
        else t.rkWord (i - 4) ^^^ t.rkWord (i - 1)

/-- R178, the spec's own inference from R173: a key round can be undone, so any one round key determines the key. The
claim is made for every `r`; above 10, where the spec has no round, it is about the model's total functions (log
entry 7). -/
def Obligations.KeyRoundCanBeUndone : Prop :=
  (∀ (p q : Block) (r : Nat), keyRound p r = keyRound q r → p = q) ∧
  (∀ (k l : Block) (r : Nat), expand k r = expand l r → k = l)

/-- R177: RDRK with an index of 0 to 10 and `KV = 1` puts the four words of the round key in `ACC`. -/
def Obligations.RdrkReadsTheRoundKey : Prop :=
  ∀ (s : State) (r : Nat), r ≤ 10 → s.kv = true →
    exec (.rdrk r) s = .next { s with
      acc := s.rkWord (4 * r) ++ s.rkWord (4 * r + 1) ++ s.rkWord (4 * r + 2) ++ s.rkWord (4 * r + 3),
      rnd := 0#4, busy := false }

/-- R171, R172 and R173: RotWord rotates left by one byte; G rotates, substitutes and adds the round constant to the most
significant byte; and the four words of a round key from the four words of the one before. -/
def Obligations.KeyRoundRule : Prop :=
  (∀ a0 a1 a2 a3 : Byte, rotWord (a0 ++ a1 ++ a2 ++ a3) = a1 ++ a2 ++ a3 ++ a0) ∧
  (∀ w : Word, rotWord w = (w <<< 8) ||| (w >>> 24)) ∧
  rotWord 0x67204675#32 = 0x20467567#32 ∧ rotWord 0x09cf4f3c#32 = 0xcf4f3c09#32 ∧ rotWord 0#32 = 0#32 ∧
  (∀ (a0 a1 a2 a3 : Byte) (r : Nat), 1 ≤ r → r ≤ 10 →
    gWord (a0 ++ a1 ++ a2 ++ a3) r = (sbox a1 ^^^ roundConst r) ++ sbox a2 ++ sbox a3 ++ sbox a0) ∧
  (∀ (w : Word) (r : Nat), 1 ≤ r → r ≤ 10 →
    gWord w r = subWord (rotWord w) ^^^ ((roundConst r).setWidth 32 <<< 24) ∧
    gWord w r = rotWord (subWord w) ^^^ ((roundConst r).setWidth 32 <<< 24)) ∧
  gWord 0x67204675#32 1 = 0xb65a9d85#32 ∧ gWord 0#32 1 = 0x62636363#32 ∧
  (∀ (p0 p1 p2 p3 : Word) (r : Nat), 1 ≤ r → r ≤ 10 →
    ∃ n0 n1 n2 n3 : Word, keyRound (p0 ++ p1 ++ p2 ++ p3) r = n0 ++ n1 ++ n2 ++ n3 ∧
      n0 = p0 ^^^ gWord p3 r ∧ n1 = p1 ^^^ n0 ∧ n2 = p2 ^^^ n1 ∧ n3 = p3 ^^^ n2)

/-! ### The GF(2^8) multiplier -/

/-- R101: `Dbl` as a number: twice the byte, less 256 and XORed with `0x1B` where bit 7 was set; with the rule's values. -/
def Obligations.DoublingRule : Prop :=
  (∀ x : Byte, (dbl x).toNat = if x.toNat < 128 then 2 * x.toNat else (2 * x.toNat - 256) ^^^ 0x1B) ∧
  dbl 0x00#8 = 0x00#8 ∧ dbl 0x01#8 = 0x02#8 ∧ dbl 0x40#8 = 0x80#8 ∧ dbl 0x7F#8 = 0xFE#8 ∧ dbl 0x80#8 = 0x1B#8 ∧
  dbl 0x8D#8 = 0x01#8 ∧ dbl 0xFF#8 = 0xE5#8

/-- R110 to R117 with R118: each GF command completes in every state and leaves in `ACC` the zero-extended product of the
low operand byte and its constant. -/
def Obligations.GfCommandsMultiply : Prop :=
  ∀ (s : State) (src : Src) (p : (Src → Instr) × Byte),
    p ∈ [(Instr.gf2, 2#8), (.gf3, 3#8), (.gf4, 4#8), (.gf8, 8#8), (.gf9, 9#8), (.gf11, 11#8), (.gf13, 13#8),
      (.gf14, 14#8)] →
    exec (p.1 src) s = .next { s with
      acc := (gfmul p.2 ((s.operand src).extractLsb' 0 8)).setWidth 128, rnd := 0#4, busy := false }

/-- R119, the spec's own inference from R100, R101 and R118: the laws of the field functions. -/
def Obligations.FieldLaws : Prop :=
  (∀ x y : Byte, dbl (x ^^^ y) = dbl x ^^^ dbl y) ∧
  (∀ p ∈ [(mul2, 2#8), (mul3, 3#8), (mul4, 4#8), (mul8, 8#8), (mul9, 9#8), (mul11, 11#8), (mul13, 13#8),
      (mul14, 14#8)],
    (∀ x y : Byte, p.1 (x ^^^ y) = p.1 x ^^^ p.1 y) ∧ p.1 0x00#8 = 0x00#8 ∧ p.1 0x01#8 = p.2 ∧
    (∀ x y : Byte, p.1 x = p.1 y → x = y) ∧ (∀ y : Byte, ∃ x, p.1 x = y)) ∧
  (∀ a x : Byte, gfmul a x = gfmul x a) ∧
  (∀ a b x : Byte, gfmul (a ^^^ b) x = gfmul a x ^^^ gfmul b x) ∧
  (∀ a b x : Byte, gfmul a (gfmul b x) = gfmul (gfmul a b) x)

/-- R170 with R121, the spec's own inference from R101: the ten round constants are the successive doublings of 1, which go on `6C, D8, AB, 4D, 9A, 2F`. -/
def Obligations.RoundConstantsAreDoublings : Prop :=
  roundConst 1 = 0x01#8 ∧ (∀ r, 1 ≤ r → r ≤ 9 → roundConst (r + 1) = dbl (roundConst r)) ∧
  [roundConst 1, roundConst 2, roundConst 3, roundConst 4, roundConst 5, roundConst 6, roundConst 7, roundConst 8,
    roundConst 9, roundConst 10] =
    [0x01#8, 0x02#8, 0x04#8, 0x08#8, 0x10#8, 0x20#8, 0x40#8, 0x80#8, 0x1B#8, 0x36#8] ∧
  dbl (roundConst 10) = 0x6C#8 ∧ dbl 0x6C#8 = 0xD8#8 ∧ dbl 0xD8#8 = 0xAB#8 ∧ dbl 0xAB#8 = 0x4D#8 ∧
  dbl 0x4D#8 = 0x9A#8 ∧ dbl 0x9A#8 = 0x2F#8

/-! ### The S-box -/

/-- R136, R137, R138: the byte and word substitutions complete in every state, each byte substituted in its place. -/
def Obligations.SubstitutionCommands : Prop :=
  ∀ (s : State) (src : Src),
    exec (.sboxb src) s = .next { s with
      acc := (sbox ((s.operand src).extractLsb' 0 8)).setWidth 128, rnd := 0#4, busy := false } ∧
    exec (.isboxb src) s = .next { s with
      acc := (invSbox ((s.operand src).extractLsb' 0 8)).setWidth 128, rnd := 0#4, busy := false } ∧
    exec (.subw src) s = .next { s with
      acc := (sbox ((s.operand src).extractLsb' 24 8) ++ sbox ((s.operand src).extractLsb' 16 8) ++
        sbox ((s.operand src).extractLsb' 8 8) ++ sbox ((s.operand src).extractLsb' 0 8)).setWidth 128,
      rnd := 0#4, busy := false }

/-- R135, in part the spec's own inference from R131 and R134: `SBOX` is a bijection, the tables invert each other, so do the block forms, and the substitution is not linear. -/
def Obligations.SubstitutionTablesAreInverse : Prop :=
  (∀ x y : Byte, sbox x = sbox y → x = y) ∧ (∀ y : Byte, ∃ x, sbox x = y) ∧
  (∀ x : Byte, invSbox (sbox x) = x) ∧ (∀ y : Byte, sbox (invSbox y) = y) ∧
  (∀ v : Block, invSubBlock (subBlock v) = v) ∧ (∀ v : Block, subBlock (invSubBlock v) = v) ∧
  (∃ x y : Byte, sbox (x ^^^ y) ≠ sbox x ^^^ sbox y) ∧ sbox 0x00#8 = 0x63#8

/-- R132, which the spec takes from general knowledge: each entry of the forward table is the affine image of the field inverse of its index. -/
def Obligations.SubstitutionTableConstruction : Prop :=
  ∀ x : Byte, ∃ u : Byte, ((x = 0x00#8 ∧ u = 0x00#8) ∨ gfmul x u = 0x01#8) ∧
    sbox x = u ^^^ u.rotateLeft 1 ^^^ u.rotateLeft 2 ^^^ u.rotateLeft 3 ^^^ u.rotateLeft 4 ^^^ 0x63#8

/-! ### Columns -/

/-- R150, R151: the two matrices, written out. -/
def Obligations.MatricesWrittenOut : Prop :=
  (List.finRange 4).map (fun i => (List.finRange 4).map (matrixF i)) =
    [[2#8, 3#8, 1#8, 1#8], [1#8, 2#8, 3#8, 1#8], [1#8, 1#8, 2#8, 3#8], [3#8, 1#8, 1#8, 2#8]] ∧
  (List.finRange 4).map (fun i => (List.finRange 4).map (matrixI i)) =
    [[14#8, 11#8, 13#8, 9#8], [9#8, 14#8, 11#8, 13#8], [13#8, 9#8, 14#8, 11#8], [11#8, 13#8, 9#8, 14#8]]

/-- R152, R153, R156, R157: MIXCOL and IMIXCOL complete in every state and leave in `ACC` the product of their matrix and
the column in bits 31:0, zero-extended: row `i` of the result is the XOR over `j` of `GFmul(M[i][j], a_j)`. -/
def Obligations.ColumnCommandsMultiplyByMatrix : Prop :=
  ∀ (s : State) (src : Src) (p : (Src → Instr) × (Fin 4 → Fin 4 → Byte)),
    p ∈ [(Instr.mixcol, matrixF), (.imixcol, matrixI)] →
    ∃ m : Word, exec (p.1 src) s = .next { s with acc := m.setWidth 128, rnd := 0#4, busy := false } ∧
      ∀ i : Fin 4, wordByte m i =
        gfmul (p.2 i 0) ((s.operand src).extractLsb' 24 8) ^^^ gfmul (p.2 i 1) ((s.operand src).extractLsb' 16 8) ^^^
        gfmul (p.2 i 2) ((s.operand src).extractLsb' 8 8) ^^^ gfmul (p.2 i 3) ((s.operand src).extractLsb' 0 8)

/-- R158, the spec's own inference from R150 to R153: the column functions undo each other on every word, and the products of the two matrices, either way round, are
the identity. -/
def Obligations.ColumnFunctionsAreInverse : Prop :=
  (∀ w : Word, invMixColumn (mixColumn w) = w) ∧ (∀ w : Word, mixColumn (invMixColumn w) = w) ∧
  (∀ i j : Fin 4,
    gfmul (matrixI i 0) (matrixF 0 j) ^^^ gfmul (matrixI i 1) (matrixF 1 j) ^^^ gfmul (matrixI i 2) (matrixF 2 j) ^^^
      gfmul (matrixI i 3) (matrixF 3 j) = if i = j then 1#8 else 0#8) ∧
  (∀ i j : Fin 4,
    gfmul (matrixF i 0) (matrixI 0 j) ^^^ gfmul (matrixF i 1) (matrixI 1 j) ^^^ gfmul (matrixF i 2) (matrixI 2 j) ^^^
      gfmul (matrixF i 3) (matrixI 3 j) = if i = j then 1#8 else 0#8)

/-- R154, the spec's own inference from R152 and R153: both column functions are linear, map the zero column to zero, leave a column of four equal bytes alone, and
send the unit columns to the columns of their matrices. -/
def Obligations.ColumnLaws : Prop :=
  (∀ u w : Word, mixColumn (u ^^^ w) = mixColumn u ^^^ mixColumn w) ∧
  (∀ u w : Word, invMixColumn (u ^^^ w) = invMixColumn u ^^^ invMixColumn w) ∧
  mixColumn 0#32 = 0#32 ∧ invMixColumn 0#32 = 0#32 ∧
  (∀ a : Byte, mixColumn (a ++ a ++ a ++ a) = a ++ a ++ a ++ a ∧
    invMixColumn (a ++ a ++ a ++ a) = a ++ a ++ a ++ a) ∧
  (∀ i : Fin 4, matrixF i 0 ^^^ matrixF i 1 ^^^ matrixF i 2 ^^^ matrixF i 3 = 1#8 ∧
    matrixI i 0 ^^^ matrixI i 1 ^^^ matrixI i 2 ^^^ matrixI i 3 = 1#8) ∧
  mixColumn 0x01000000#32 = 0x02010103#32 ∧ mixColumn 0x00010000#32 = 0x03020101#32 ∧
  mixColumn 0x00000100#32 = 0x01030201#32 ∧ mixColumn 0x00000001#32 = 0x01010302#32 ∧
  invMixColumn 0x01000000#32 = 0x0E090D0B#32 ∧ invMixColumn 0x00010000#32 = 0x0B0E090D#32 ∧
  invMixColumn 0x00000100#32 = 0x0D0B0E09#32 ∧ invMixColumn 0x00000001#32 = 0x090D0B0E#32

/-! ### Round transforms -/

/-- R191: where each element and each byte of a block goes under ShiftRows. -/
def Obligations.ShiftRowsRule : Prop :=
  (∀ (v : Block) (r c : Fin 4), stateElem (shiftRows v) r c = stateElem v r (c + r)) ∧
  (∀ (v : Block) (i j : Fin 16), j.val = (i.val + 4 * (i.val % 4)) % 16 → blockByte (shiftRows v) i = blockByte v j) ∧
  shiftRows 0x000102030405060708090a0b0c0d0e0f#128 = 0x00050a0f04090e03080d02070c01060b#128

/-- R191 to R196, R201 to R206: the six block commands complete in every state; their results byte by byte, row by row and
column by column. Row and column numbers add and subtract modulo 4. -/
def Obligations.BlockTransformCommands : Prop :=
  ∀ (s : State) (src : Src), ∃ v1 v2 v3 v4 v5 v6 : Block,
    exec (.subbytes src) s = .next { s with acc := v1, rnd := 0#4, busy := false } ∧
    (∀ i, blockByte v1 i = sbox (blockByte (s.operand src) i)) ∧
    exec (.isubbytes src) s = .next { s with acc := v2, rnd := 0#4, busy := false } ∧
    (∀ i, blockByte v2 i = invSbox (blockByte (s.operand src) i)) ∧
    exec (.shiftrows src) s = .next { s with acc := v3, rnd := 0#4, busy := false } ∧
    (∀ r c : Fin 4, stateElem v3 r c = stateElem (s.operand src) r (c + r)) ∧
    exec (.ishiftrows src) s = .next { s with acc := v4, rnd := 0#4, busy := false } ∧
    (∀ r c : Fin 4, stateElem v4 r c = stateElem (s.operand src) r (c - r)) ∧
    exec (.mixcols src) s = .next { s with acc := v5, rnd := 0#4, busy := false } ∧
    (∀ c, col v5 c = mixColumn (col (s.operand src) c)) ∧
    exec (.imixcols src) s = .next { s with acc := v6, rnd := 0#4, busy := false } ∧
    (∀ c, col v6 c = invMixColumn (col (s.operand src) c))

/-- R200: ARK with an index of 0 to 10 and `KV = 1` leaves in `ACC` the XOR of its operand and the four words of the
round key. -/
def Obligations.ArkAddsTheRoundKey : Prop :=
  ∀ (s : State) (src : Src) (r : Nat), r ≤ 10 → s.kv = true →
    exec (.ark src r) s = .next { s with
      acc := s.operand src ^^^
        (s.rkWord (4 * r) ++ s.rkWord (4 * r + 1) ++ s.rkWord (4 * r + 2) ++ s.rkWord (4 * r + 3)),
      rnd := 0#4, busy := false }

/-- R197: the inverse pairs of the round transforms, for every block and every round key. -/
def Obligations.TransformInversePairs : Prop :=
  (∀ v : Block, invShiftRows (shiftRows v) = v) ∧ (∀ v : Block, shiftRows (invShiftRows v) = v) ∧
  (∀ v : Block, invSubBytes (subBytes v) = v) ∧ (∀ v : Block, subBytes (invSubBytes v) = v) ∧
  (∀ v : Block, invMixColumns (mixColumns v) = v) ∧ (∀ v : Block, mixColumns (invMixColumns v) = v) ∧
  (∀ v k : Block, addRoundKey (addRoundKey v k) k = v)

/-- R198, the spec's own inference from R190 to R196: the byte layers commute with the row layers, and the row and column layers are linear with `T(0) = 0`, while the
byte layer is not. -/
def Obligations.LayersCommuteAndAreLinear : Prop :=
  (∀ v : Block, subBytes (shiftRows v) = shiftRows (subBytes v)) ∧
  (∀ v : Block, invSubBytes (invShiftRows v) = invShiftRows (invSubBytes v)) ∧
  (∀ T ∈ [shiftRows, invShiftRows, mixColumns, invMixColumns],
    (∀ u v : Block, T (u ^^^ v) = T u ^^^ T v) ∧ T 0#128 = 0#128) ∧
  subBytes 0#128 = 0x63636363636363636363636363636363#128

/-! ### The sequencer -/

/-- R224, R227: with `KV = 1` ENC and DEC complete and leave in `ACC` the encryption, or the decryption, of their operand
under the eleven round keys of the store. -/
def Obligations.EncAndDecResults : Prop :=
  ∀ (s : State) (src : Src), s.kv = true →
    exec (.enc src) s = .next { s with acc := encrypt (s.operand src) s.rkey, rnd := 0#4, busy := false } ∧
    exec (.dec src) s = .next { s with acc := decrypt (s.operand src) s.rkey, rnd := 0#4, busy := false }

/-- R228, R229: `RND` goes through 0 to 10 in ENC, 10 to 0 in DEC and 1 to 10 in KEYEXP; after the step at each value
`ACC` holds the encryption or decryption state of that step, and the store the round keys up to that round. -/
def Obligations.SequencerStates : Prop :=
  (encOrder.map BitVec.toNat = [0, 1, 2, 3, 4, 5, 6, 7, 8, 9, 10] ∧
    decOrder.map BitVec.toNat = [10, 9, 8, 7, 6, 5, 4, 3, 2, 1, 0] ∧
    keyexpOrder.map BitVec.toNat = [1, 2, 3, 4, 5, 6, 7, 8, 9, 10]) ∧
  (∀ (s : State) (n : Nat), n ≤ 10 →
    runRounds encRound (encOrder.take (n + 1)) s =
      { s with rnd := BitVec.ofNat 4 n, acc := encState s.rkey s.acc n }) ∧
  (∀ (s : State) (n : Nat), n ≤ 10 →
    runRounds decRound (decOrder.take (n + 1)) s =
      { s with rnd := BitVec.ofNat 4 (10 - n), acc := decState s.rkey s.acc n }) ∧
  (∀ (s : State) (k : Block) (n r : Nat), n ≤ 10 → r ≤ n →
    (runRounds keyexpRound (keyexpOrder.take n) (s.loadKey k)).rkey r = expand k r)

/-- R226, the spec's own inference from R220 to R223 and R197: decryption passes through the states of encryption in reverse, and its last step takes the first round key off
again. `decState K c n` is the state `d(10 - n)`. -/
def Obligations.DecryptionRetracesEncryption : Prop :=
  ∀ (K : Schedule) (p : Block),
    (∀ r, 1 ≤ r → r ≤ 10 → decState K (encrypt p K) (10 - r) = encState K p (r - 1)) ∧
    decState K (encrypt p K) 10 = encState K p 0 ^^^ K 0 ∧ encState K p 0 ^^^ K 0 = p

/-- R225, in part the spec's own inference from R226: decryption undoes encryption under the schedule of any key, under any schedule at all, and in the other
order. -/
def Obligations.CipherRoundTrip : Prop :=
  (∀ k p : Block, decrypt (encrypt p (expand k)) (expand k) = p) ∧
  (∀ (p : Block) (K : Schedule), decrypt (encrypt p K) K = p) ∧
  (∀ (c : Block) (K : Schedule), encrypt (decrypt c K) K = c)

/-- R225 on the machine: from any state, KEYEXP, then ENC of any block, then DEC of the accumulator leaves that block in
the accumulator, and DEC then ENC likewise; nothing faults. -/
def Obligations.EncThenDecRestoresTheBlock : Prop :=
  ∀ (s : State) (key : Src), ∃ k, exec (.keyexp key) s = .next k ∧
    (∀ (u : State) (src : Src), u.kv = true →
      ∃ t v, exec (.enc src) u = .next t ∧ exec (.dec .acc) t = .next v ∧
        v = { u with acc := u.operand src, rnd := 0#4, busy := false }) ∧
    (∀ (u : State) (src : Src), u.kv = true →
      ∃ t v, exec (.dec src) u = .next t ∧ exec (.enc .acc) t = .next v ∧
        v = { u with acc := u.operand src, rnd := 0#4, busy := false }) ∧
    k.kv = true

/-- R230, the spec's own inference from R224, R227 and R200 to R206: the 40 layer commands the host can issue one by one leave the state that ENC leaves, and the 40 of the other
direction the state that DEC leaves. -/
def Obligations.LayerCommandsReproduceEncAndDec : Prop :=
  ∀ (s : State) (src : Src), s.kv = true →
    runCommands ([.ark src 0] ++
        ([1, 2, 3, 4, 5, 6, 7, 8, 9].flatMap fun r => [.subbytes .acc, .shiftrows .acc, .mixcols .acc, .ark .acc r]) ++
        [.subbytes .acc, .shiftrows .acc, .ark .acc 10]) s = exec (.enc src) s ∧
    runCommands ([.ark src 10, .ishiftrows .acc, .isubbytes .acc] ++
        ([9, 8, 7, 6, 5, 4, 3, 2, 1].flatMap fun r =>
          [.ark .acc r, .imixcols .acc, .ishiftrows .acc, .isubbytes .acc]) ++
        [.ark .acc 0]) s = exec (.dec src) s

/-! ### Invariants -/

/-- The invariants that R265 infers, with R24 and R27: the invariant holds after every step from a state in which it holds: the store canonical, and
with `KV = 1` the whole schedule of its own round key 0; `ECAUSE = 0` exactly when `ERR = 0`; `BUSY` and `RND` 0. -/
def Obligations.StepKeepsTheInvariant : Prop :=
  ∀ s t : State, Inv s → step s = .next t → Inv t

/-- The invariant holds after reset. -/
def Obligations.ResetHasTheInvariant : Prop := Inv State.reset

/-- R281, R253: while `KV = 0` no command's outcome depends on the unspecified contents of the store. Two states that
differ in nothing but those contents have next states that differ in nothing else, and in which, once `KV = 1`, all
176 bytes are equal. The contents are the listed bytes and `rkEra`, the name of the free ones (log entry 2); RDRK, ARK,
ENC and DEC fault here, the other commands complete. -/
def Obligations.UnspecifiedStoreIsNeverSeen : Prop :=
  ∀ (i : Instr) (s : State) (m : Memory) (era : Nat), s.kv = false →
    ∃ t u, exec i s = .next t ∧ exec i { s with rk := m, rkEra := era } = .next u ∧
      u = { t with rk := u.rk, rkEra := era } ∧
      (t.kv = true → ∀ a, a < 176 → t.memByte a = u.memByte a)

/-! ### The clock-level view -/

/-- R31, R285: from the accepting edge to the edge before the completing one, `BUSY = 1`, nothing is accepted whatever the
host presents, and the store, `KV`, `ERR` and `ECAUSE` are as they were at acceptance. That `ACC` and `RND` are too is
the model's choice: R31 lets both hold intermediate values (log entry 6). -/
def Obligations.NothingChangesWhileBusy : Prop :=
  ∀ (c : Clocked) (i : Instr) (n : Nat), c.flight = none → c.core.port.rst = false → c.core.accepts = true →
    c.core.check = .execute i → (∀ p ∈ c.core.host, p.rst = false) → n ≤ c.core.latency →
    ∃ d, Clocked.run (n + 1) c = .next d ∧ d.core = { c.core.advanceBy (n + 1) with busy := true } ∧
      d.flight = some ⟨i, c.core.port, c.core.latency - n⟩ ∧ d.core.cmdReady = false

/-- R31, R265, R284: a command accepted at one edge and left alone by reset commits, `LAT(op)` edges later, exactly what
`exec` gives in the state it was accepted in, whatever the host presents meanwhile; the command-level step has
that same effect. -/
def Obligations.ClockedCommandCommitsTheStep : Prop :=
  ∀ (c : Clocked) (i : Instr), c.flight = none → c.core.port.rst = false → c.core.accepts = true →
    c.core.check = .execute i → (∀ p ∈ c.core.host, p.rst = false) →
    ∃ t d, exec i c.core = .next t ∧ step c.core = .next t.advance ∧
      Clocked.run (c.core.latency + 2) c = .next d ∧ d.flight = none ∧
      d.core = { c.core.advanceBy (c.core.latency + 2) with
        acc := t.acc, rk := t.rk, kv := t.kv, busy := t.busy, err := t.err, ecause := t.ecause, rnd := t.rnd }

/-- R30, R256, R280: with no command in progress, an edge with reset, an edge that accepts a faulting command and an
edge that accepts nothing do at the clock level what the command-level step does. -/
def Obligations.OtherEdgesAreSteps : Prop :=
  ∀ c : Clocked, c.flight = none →
    (c.core.port.rst = true ∨ c.core.accepts = false ∨ ∃ cause, c.core.check = .fault cause) →
    ∃ t, step c.core = .next t ∧ c.tick = .next ⟨t, none⟩

/-- R280: reset abandons the command in progress without committing anything. That no byte of the store is listed after it
is the model's form of 'unspecified' (log entry 2). -/
def Obligations.ResetAbandonsTheCommand : Prop :=
  ∀ c : Clocked, c.core.port.rst = true →
    ∃ d, c.tick = .next d ∧ d.flight = none ∧ d.core.acc = 0#128 ∧ d.core.kv = false ∧ d.core.busy = false ∧
      d.core.err = false ∧ d.core.ecause = 0#2 ∧ d.core.rnd = 0#4 ∧ d.core.rk = []

/-- R24, R26 and R265's invariants at the clock level: the clock-level invariant holds after every edge from a state in
which it holds. Its clause that `RND` is 0 also while `BUSY = 1` is the model's choice: R27 lets `RND` run there (log
entry 6). -/
def Obligations.ClockKeepsTheInvariant : Prop :=
  ∀ c d : Clocked, c.Inv → c.tick = .next d → d.Inv

/-! ### The command syntax -/

/-- R84, R85. A line that assembles names, by its mnemonic, the row of the command its word decodes to (`DBL` names GF2),
and gives it its SRC, RIDX and data value: a literal's digits, most significant first and zero-extended. Every
well-formed command with every data value has such a line. `DBL` assembles as `GF2` does. That a literal has 1 to 32
digits for every command, and that the data value is 0 where `din` is not used, is the model's choice (log entry 9). -/
def Obligations.AssemblerMatchesTheDecoder : Prop :=
  (∀ (l : AsmLine) (cw : CmdWord) (d : Block), l.assemble = some (cw, d) →
    (∃ i, decode cw = .ok i ∧ i.row.mnemonic = if l.mnemonic = "DBL" then "GF2" else l.mnemonic) ∧
    (cw.getLsbD 7 = true ↔ l.operand = some .acc) ∧ (l.operand = none ↔ l.mnemonic = "RDRK") ∧
    (ridxField cw).toNat = l.ridx.getD 0 ∧ (l.ridx.isSome = true ↔ l.mnemonic = "ARK" ∨ l.mnemonic = "RDRK") ∧
    (∀ ds, l.operand = some (.literal ds) → ds ≠ [] ∧ ds.length ≤ 32 ∧ d.toNat = hexValue ds) ∧
    ((∀ ds, l.operand ≠ some (.literal ds)) → d = 0#128)) ∧
  (∀ (i : Instr) (d : Block), WellFormed i →
    ((encode i).getLsbD 7 = true ∨ (∃ r, i = .rdrk r) → d = 0#128) →
    ∃ l : AsmLine, l.mnemonic = i.row.mnemonic ∧ l.assemble = some (encode i, d)) ∧
  (∀ (m : String) (r : Option Nat) (ds es : List (Fin 16)) (cw : CmdWord) (d : Block),
    AsmLine.assemble ⟨m, r, some (.literal ds)⟩ = some (cw, d) → es ≠ [] → es.length ≤ 32 →
    AsmLine.assemble ⟨m, r, some (.literal es)⟩ = some (cw, BitVec.ofNat 128 (hexValue es))) ∧
  (hexValue [] = 0 ∧ ∀ (ds : List (Fin 16)) (x : Fin 16), hexValue (ds ++ [x]) = 16 * hexValue ds + x.val) ∧
  (∀ (r : Option Nat) (o : Option AsmOperand),
    AsmLine.assemble ⟨"DBL", r, o⟩ = AsmLine.assemble ⟨"GF2", r, o⟩)
end

