-- ==== Sys2Proof/Laws/Layout.lean ====
section
/-! SUPPORT. Bytes, words and blocks: taking apart what was put together, and XOR piece by piece. -/

namespace Sys2Proof.Machine

section
variable (a b c d : Byte)

@[simp] theorem wordByte_mkWord_0 : wordByte (mkWord a b c d) 0 = a := by
  simp only [wordByte, mkWord]; simp; grind
@[simp] theorem wordByte_mkWord_1 : wordByte (mkWord a b c d) 1 = b := by
  simp only [wordByte, mkWord]; simp; grind
@[simp] theorem wordByte_mkWord_2 : wordByte (mkWord a b c d) 2 = c := by
  simp only [wordByte, mkWord]; simp; grind
@[simp] theorem wordByte_mkWord_3 : wordByte (mkWord a b c d) 3 = d := by
  simp only [wordByte, mkWord]; simp; grind

end

section
variable (a b c d : Word)

@[simp] theorem col_ofCols_0 : col (ofCols a b c d) 0 = a := by simp only [col, ofCols]; simp; grind
@[simp] theorem col_ofCols_1 : col (ofCols a b c d) 1 = b := by simp only [col, ofCols]; simp; grind
@[simp] theorem col_ofCols_2 : col (ofCols a b c d) 2 = c := by simp only [col, ofCols]; simp; grind
@[simp] theorem col_ofCols_3 : col (ofCols a b c d) 3 = d := by simp only [col, ofCols]; simp; grind

end

/-- A word is its four bytes (R5). -/
@[simp] theorem mkWord_wordByte (w : Word) :
    mkWord (wordByte w 0) (wordByte w 1) (wordByte w 2) (wordByte w 3) = w := by
  simp only [wordByte, mkWord]; simp; grind

/-- A block is its four columns (R5). -/
@[simp] theorem ofCols_col (v : Block) : ofCols (col v 0) (col v 1) (col v 2) (col v 3) = v := by
  simp only [col, ofCols]; simp; grind

/-- Words with the same four bytes are equal. -/
theorem word_ext {u w : Word} (h : ∀ j, wordByte u j = wordByte w j) : u = w := by
  rw [← mkWord_wordByte u, ← mkWord_wordByte w, h 0, h 1, h 2, h 3]

/-- Blocks with the same four columns are equal. -/
theorem block_ext_col {u v : Block} (h : ∀ c, col u c = col v c) : u = v := by
  rw [← ofCols_col u, ← ofCols_col v, h 0, h 1, h 2, h 3]

/-- Byte `4c + j` of a block is byte `j` of its column `c` (R5). -/
theorem wordByte_col (v : Block) (c j : Fin 4) :
    wordByte (col v c) j = blockByte v ⟨4 * c.val + j.val, by omega⟩ := by
  fin_cases c <;> fin_cases j <;> simp [blockByte, wordByte, col] <;> ext i hi <;> simp <;> grind

/-- Byte `i` of a block is byte `i mod 4` of its column `i div 4` (R5). -/
theorem blockByte_eq (v : Block) (i : Fin 16) :
    blockByte v i = wordByte (col v ⟨i.val / 4, by omega⟩) ⟨i.val % 4, by omega⟩ := by
  rw [wordByte_col]; congr 1; ext; simp; omega

/-- Blocks with the same sixteen bytes are equal. -/
theorem block_ext {u v : Block} (h : ∀ i, blockByte u i = blockByte v i) : u = v :=
  block_ext_col fun c => word_ext fun j => by rw [wordByte_col, wordByte_col, h]

/-- Byte `i` of a block put together from sixteen bytes is the `i`-th of them (R4). -/
@[simp] theorem blockByte_mkBlock (f : Fin 16 → Byte) (i : Fin 16) : blockByte (mkBlock f) i = f i := by
  rw [blockByte_eq, mkBlock]; fin_cases i <;> simp

/-- A block is its sixteen bytes (R4). -/
@[simp] theorem mkBlock_blockByte (v : Block) : mkBlock (blockByte v) = v := block_ext (blockByte_mkBlock _)

/-! ### XOR -/

@[simp] theorem wordByte_xor (u w : Word) (j : Fin 4) : wordByte (u ^^^ w) j = wordByte u j ^^^ wordByte w j := by
  simp only [wordByte]; ext i hi; simp

@[simp] theorem col_xor (u v : Block) (c : Fin 4) : col (u ^^^ v) c = col u c ^^^ col v c := by
  simp only [col]; ext i hi; simp

@[simp] theorem blockByte_xor (u v : Block) (i : Fin 16) :
    blockByte (u ^^^ v) i = blockByte u i ^^^ blockByte v i := by
  simp only [blockByte]; ext j hj; simp

end Sys2Proof.Machine
end

