-- ==== Sys2Proof/Laws/State.lean ====
section
/-! SUPPORT. What each update of the state does to each field: one lemma per field per update, true by definition, so that no
proof unfolds a record update. -/

namespace Sys2Proof.Machine

section
variable (s : State)

/-! ### `State.begin` -/

@[simp] theorem State.begin_acc : s.begin.acc = s.acc := rfl
@[simp] theorem State.begin_rk : s.begin.rk = s.rk := rfl
@[simp] theorem State.begin_kv : s.begin.kv = s.kv := rfl
@[simp] theorem State.begin_busy : s.begin.busy = true := rfl
@[simp] theorem State.begin_err : s.begin.err = s.err := rfl
@[simp] theorem State.begin_ecause : s.begin.ecause = s.ecause := rfl
@[simp] theorem State.begin_rnd : s.begin.rnd = s.rnd := rfl
@[simp] theorem State.begin_port : s.begin.port = s.port := rfl
@[simp] theorem State.begin_host : s.begin.host = s.host := rfl
@[simp] theorem State.begin_rkEra : s.begin.rkEra = s.rkEra := rfl
@[simp] theorem State.begin_edge : s.begin.edge = s.edge := rfl

/-! ### `State.complete` -/

@[simp] theorem State.complete_acc : s.complete.acc = s.acc := rfl
@[simp] theorem State.complete_rk : s.complete.rk = s.rk := rfl
@[simp] theorem State.complete_kv : s.complete.kv = s.kv := rfl
@[simp] theorem State.complete_busy : s.complete.busy = false := rfl
@[simp] theorem State.complete_err : s.complete.err = s.err := rfl
@[simp] theorem State.complete_ecause : s.complete.ecause = s.ecause := rfl
@[simp] theorem State.complete_rnd : s.complete.rnd = 0#4 := rfl
@[simp] theorem State.complete_port : s.complete.port = s.port := rfl
@[simp] theorem State.complete_host : s.complete.host = s.host := rfl
@[simp] theorem State.complete_rkEra : s.complete.rkEra = s.rkEra := rfl
@[simp] theorem State.complete_edge : s.complete.edge = s.edge := rfl

/-! ### `State.finish` -/

@[simp] theorem State.finish_acc (v : Block) : (s.finish v).acc = v := rfl
@[simp] theorem State.finish_rk (v : Block) : (s.finish v).rk = s.rk := rfl
@[simp] theorem State.finish_kv (v : Block) : (s.finish v).kv = s.kv := rfl
@[simp] theorem State.finish_busy (v : Block) : (s.finish v).busy = false := rfl
@[simp] theorem State.finish_err (v : Block) : (s.finish v).err = s.err := rfl
@[simp] theorem State.finish_ecause (v : Block) : (s.finish v).ecause = s.ecause := rfl
@[simp] theorem State.finish_rnd (v : Block) : (s.finish v).rnd = 0#4 := rfl
@[simp] theorem State.finish_port (v : Block) : (s.finish v).port = s.port := rfl
@[simp] theorem State.finish_host (v : Block) : (s.finish v).host = s.host := rfl
@[simp] theorem State.finish_rkEra (v : Block) : (s.finish v).rkEra = s.rkEra := rfl
@[simp] theorem State.finish_edge (v : Block) : (s.finish v).edge = s.edge := rfl

/-! ### `State.faultEntry` -/

@[simp] theorem State.faultEntry_acc (c : Cause) : (s.faultEntry c).acc = s.acc := rfl
@[simp] theorem State.faultEntry_rk (c : Cause) : (s.faultEntry c).rk = s.rk := rfl
@[simp] theorem State.faultEntry_kv (c : Cause) : (s.faultEntry c).kv = s.kv := rfl
@[simp] theorem State.faultEntry_busy (c : Cause) : (s.faultEntry c).busy = s.busy := rfl
@[simp] theorem State.faultEntry_err (c : Cause) : (s.faultEntry c).err = true := rfl
@[simp] theorem State.faultEntry_ecause (c : Cause) : (s.faultEntry c).ecause = c.code := rfl
@[simp] theorem State.faultEntry_rnd (c : Cause) : (s.faultEntry c).rnd = s.rnd := rfl
@[simp] theorem State.faultEntry_port (c : Cause) : (s.faultEntry c).port = s.port := rfl
@[simp] theorem State.faultEntry_host (c : Cause) : (s.faultEntry c).host = s.host := rfl
@[simp] theorem State.faultEntry_rkEra (c : Cause) : (s.faultEntry c).rkEra = s.rkEra := rfl
@[simp] theorem State.faultEntry_edge (c : Cause) : (s.faultEntry c).edge = s.edge := rfl

/-! ### `State.applyReset` -/

@[simp] theorem State.applyReset_acc : s.applyReset.acc = 0#128 := rfl
@[simp] theorem State.applyReset_rk : s.applyReset.rk = [] := rfl
@[simp] theorem State.applyReset_kv : s.applyReset.kv = false := rfl
@[simp] theorem State.applyReset_busy : s.applyReset.busy = false := rfl
@[simp] theorem State.applyReset_err : s.applyReset.err = false := rfl
@[simp] theorem State.applyReset_ecause : s.applyReset.ecause = 0#2 := rfl
@[simp] theorem State.applyReset_rnd : s.applyReset.rnd = 0#4 := rfl
@[simp] theorem State.applyReset_port : s.applyReset.port = s.port := rfl
@[simp] theorem State.applyReset_host : s.applyReset.host = s.host := rfl
@[simp] theorem State.applyReset_rkEra : s.applyReset.rkEra = Config.rkEraAfterReset s.edge s.rkEra s.rk s.acc := rfl
@[simp] theorem State.applyReset_edge : s.applyReset.edge = s.edge := rfl

/-! ### `State.present` -/

@[simp] theorem State.present_acc (cw : CmdWord) : (s.present cw).acc = s.acc := rfl
@[simp] theorem State.present_rk (cw : CmdWord) : (s.present cw).rk = s.rk := rfl
@[simp] theorem State.present_kv (cw : CmdWord) : (s.present cw).kv = s.kv := rfl
@[simp] theorem State.present_busy (cw : CmdWord) : (s.present cw).busy = s.busy := rfl
@[simp] theorem State.present_err (cw : CmdWord) : (s.present cw).err = s.err := rfl
@[simp] theorem State.present_ecause (cw : CmdWord) : (s.present cw).ecause = s.ecause := rfl
@[simp] theorem State.present_rnd (cw : CmdWord) : (s.present cw).rnd = s.rnd := rfl
@[simp] theorem State.present_port (cw : CmdWord) : (s.present cw).port = { s.port with rst := false, cmdValid := true, cw := cw } := rfl
@[simp] theorem State.present_host (cw : CmdWord) : (s.present cw).host = s.host := rfl
@[simp] theorem State.present_rkEra (cw : CmdWord) : (s.present cw).rkEra = s.rkEra := rfl
@[simp] theorem State.present_edge (cw : CmdWord) : (s.present cw).edge = s.edge := rfl

/-! ### `State.writeRkWord` -/

@[simp] theorem State.writeRkWord_acc (i : Nat) (w : Word) : (s.writeRkWord i w).acc = s.acc := rfl
@[simp] theorem State.writeRkWord_rk (i : Nat) (w : Word) : (s.writeRkWord i w).rk = s.rk.writeBytes (4 * i) [wordByte w 0, wordByte w 1, wordByte w 2, wordByte w 3] := rfl
@[simp] theorem State.writeRkWord_kv (i : Nat) (w : Word) : (s.writeRkWord i w).kv = s.kv := rfl
@[simp] theorem State.writeRkWord_busy (i : Nat) (w : Word) : (s.writeRkWord i w).busy = s.busy := rfl
@[simp] theorem State.writeRkWord_err (i : Nat) (w : Word) : (s.writeRkWord i w).err = s.err := rfl
@[simp] theorem State.writeRkWord_ecause (i : Nat) (w : Word) : (s.writeRkWord i w).ecause = s.ecause := rfl
@[simp] theorem State.writeRkWord_rnd (i : Nat) (w : Word) : (s.writeRkWord i w).rnd = s.rnd := rfl
@[simp] theorem State.writeRkWord_port (i : Nat) (w : Word) : (s.writeRkWord i w).port = s.port := rfl
@[simp] theorem State.writeRkWord_host (i : Nat) (w : Word) : (s.writeRkWord i w).host = s.host := rfl
@[simp] theorem State.writeRkWord_rkEra (i : Nat) (w : Word) : (s.writeRkWord i w).rkEra = s.rkEra := rfl
@[simp] theorem State.writeRkWord_edge (i : Nat) (w : Word) : (s.writeRkWord i w).edge = s.edge := rfl

/-! ### `State.advance` -/

@[simp] theorem State.advance_acc : s.advance.acc = s.acc := by
  unfold State.advance; split <;> rfl
@[simp] theorem State.advance_rk : s.advance.rk = s.rk := by
  unfold State.advance; split <;> rfl
@[simp] theorem State.advance_kv : s.advance.kv = s.kv := by
  unfold State.advance; split <;> rfl
@[simp] theorem State.advance_busy : s.advance.busy = s.busy := by
  unfold State.advance; split <;> rfl
@[simp] theorem State.advance_err : s.advance.err = s.err := by
  unfold State.advance; split <;> rfl
@[simp] theorem State.advance_ecause : s.advance.ecause = s.ecause := by
  unfold State.advance; split <;> rfl
@[simp] theorem State.advance_rnd : s.advance.rnd = s.rnd := by
  unfold State.advance; split <;> rfl
@[simp] theorem State.advance_rkEra : s.advance.rkEra = s.rkEra := by
  unfold State.advance; split <;> rfl
@[simp] theorem State.advance_edge : s.advance.edge = s.edge + 1 := by
  unfold State.advance; split <;> rfl

theorem State.advance_nil (h : s.host = []) : s.advance = { s with port := s.port.idle, edge := s.edge + 1 } := by
  simp [State.advance, h]

theorem State.advance_cons {p : HostPort} {rest : List HostPort} (h : s.host = p :: rest) :
    s.advance = { s with port := p, host := rest, edge := s.edge + 1 } := by
  simp [State.advance, h]

/-- The host's next move changes its ports and the count of edges, nothing else. -/
theorem State.advance_frame :
    s.advance = { s with port := s.advance.port, host := s.advance.host, edge := s.edge + 1 } := by
  unfold State.advance; split <;> rfl

/-- A host that has no reset ahead asserts none at the next edge either. -/
theorem State.advance_noReset (h : ∀ p ∈ s.host, p.rst = false) :
    s.advance.port.rst = false ∧ ∀ p ∈ s.advance.host, p.rst = false := by
  cases hh : s.host with
  | nil => simp [State.advance_nil s hh, HostPort.idle, hh]
  | cons p rest => simp_all [State.advance_cons s hh]

/-! ### Reads of the store -/

/-- A byte read depends on the store and on the era of its unspecified contents only. -/
theorem State.memByte_congr {s t : State} (hk : s.rk = t.rk) (he : s.rkEra = t.rkEra) (a : Nat) :
    s.memByte a = t.memByte a := by
  simp [State.memByte, hk, he]

theorem State.rkey_congr {s t : State} (hk : s.rk = t.rk) (he : s.rkEra = t.rkEra) : s.rkey = t.rkey := by
  funext r; simp [State.rkey, State.memByte, hk, he]

theorem State.rkWord_congr {s t : State} (hk : s.rk = t.rk) (he : s.rkEra = t.rkEra) : s.rkWord = t.rkWord := by
  funext i; simp [State.rkWord, State.memByte, hk, he]

@[simp] theorem State.advance_memByte (a : Nat) : s.advance.memByte a = s.memByte a :=
  State.memByte_congr (by simp) (by simp) a

@[simp] theorem State.finish_memByte (v : Block) (a : Nat) : (s.finish v).memByte a = s.memByte a := rfl
@[simp] theorem State.finish_rkey (v : Block) : (s.finish v).rkey = s.rkey := rfl
@[simp] theorem State.finish_rkWord (v : Block) : (s.finish v).rkWord = s.rkWord := rfl
@[simp] theorem State.faultEntry_memByte (c : Cause) (a : Nat) : (s.faultEntry c).memByte a = s.memByte a := rfl
@[simp] theorem State.begin_memByte (a : Nat) : s.begin.memByte a = s.memByte a := rfl
@[simp] theorem State.begin_rkey : s.begin.rkey = s.rkey := rfl
@[simp] theorem State.begin_operand (src : Src) : s.begin.operand src = s.operand src := rfl

/-! ### Results one after another -/

/-- A result replaces an earlier result, and that is all. -/
@[simp] theorem State.finish_finish (v w : Block) : (s.finish v).finish w = s.finish w := rfl
@[simp] theorem State.finish_operand_acc (v : Block) : (s.finish v).operand .acc = v := rfl
@[simp] theorem State.finish_operand_din (v : Block) : (s.finish v).operand .din = s.operand .din := rfl

end

end Sys2Proof.Machine
end

