-- ==== Sys2Proof/Laws/Memory.lean ====
section
/-! SUPPORT. The round-key store: what a read gives after a write, and that every operation keeps the canonical form. -/

namespace Sys2Proof.Machine

@[simp] theorem Memory.read_nil (a : Nat) : Memory.read [] a = none := rfl

theorem Memory.read_cons (k : Nat) (b : Byte) (m : Memory) (a : Nat) :
    Memory.read ((k, b) :: m) a = if k = a then some b else Memory.read m a := by
  simp [Memory.read, cond_eq_ite]

theorem Memory.write_cons (k : Nat) (c : Byte) (m : Memory) (a : Nat) (b : Byte) :
    Memory.write ((k, c) :: m) a b =
      if a < k then (a, b) :: (k, c) :: m else if a = k then (a, b) :: m else (k, c) :: Memory.write m a b := by
  simp [Memory.write, cond_eq_ite]

/-- A byte written is the byte read at its address; every other address reads as before. -/
theorem Memory.read_write (m : Memory) (a b : Nat) (v : Byte) :
    Memory.read (Memory.write m a v) b = if a = b then some v else Memory.read m b := by
  induction m with
  | nil => simp [Memory.write, Memory.read_cons]
  | cons c m ih =>
    obtain ⟨k, c⟩ := c
    rw [Memory.write_cons]
    split
    · simp [Memory.read_cons]
    · split
      · subst a; simp only [Memory.read_cons]; split <;> simp_all
      · simp only [Memory.read_cons, ih]
        split
        · rw [if_neg (by omega)]
        · rfl

/-- After a list of bytes is written from `a` on, the addresses `a` to `a + length - 1` hold them in order and every
other address reads as before. -/
theorem Memory.read_writeBytes (bs : List Byte) (m : Memory) (a b : Nat) :
    Memory.read (Memory.writeBytes m a bs) b =
      if h : a ≤ b ∧ b < a + bs.length then some (bs[b - a]'(by omega)) else Memory.read m b := by
  induction bs generalizing m a with
  | nil => simp [Memory.writeBytes]
  | cons v bs ih =>
    rw [Memory.writeBytes, ih, Memory.read_write]
    by_cases h1 : a = b
    · subst h1; simp
    · by_cases h2 : a + 1 ≤ b ∧ b < a + 1 + bs.length
      · have h3 : a ≤ b ∧ b < a + (v :: bs).length := by simp only [List.length_cons]; omega
        rw [dif_pos h2, dif_pos h3]
        have : b - a = (b - (a + 1)) + 1 := by omega
        simp only [this, List.getElem_cons_succ]
      · have h3 : ¬ (a ≤ b ∧ b < a + (v :: bs).length) := by simp only [List.length_cons]; omega
        rw [dif_neg h2, dif_neg h3, if_neg h1]

/-! ### The canonical form -/

@[simp] theorem Memory.wf_nil : Memory.wf [] = true := rfl

theorem Memory.wf_cons (k : Nat) (b : Byte) (m : Memory) :
    Memory.wf ((k, b) :: m) = true ↔ k < rkBytes ∧ (∀ c ∈ m, k < c.1) ∧ Memory.wf m = true := by
  simp [Memory.wf, and_assoc]

/-- Every entry of a written memory is an entry of the old one or the new byte. -/
theorem Memory.mem_write {m : Memory} {a : Nat} {v : Byte} {c : Host.Cell} (h : c ∈ Memory.write m a v) :
    c ∈ m ∨ c = (a, v) := by
  induction m with
  | nil => simp_all [Memory.write]
  | cons d m ih =>
    obtain ⟨k, d⟩ := d
    rw [Memory.write_cons] at h
    split at h
    · simp only [List.mem_cons] at h ⊢; tauto
    · split at h
      · simp only [List.mem_cons] at h ⊢; tauto
      · simp only [List.mem_cons] at h ⊢
        rcases h with h | h
        · tauto
        · rcases ih h with h | h <;> tauto

/-- Writing a byte at an address of the store keeps the canonical form. -/
theorem Memory.write_wf {m : Memory} {a : Nat} (v : Byte) (ha : a < rkBytes) (h : Memory.wf m = true) :
    Memory.wf (Memory.write m a v) = true := by
  induction m with
  | nil => simp [Memory.write, Memory.wf_cons, ha]
  | cons c m ih =>
    obtain ⟨k, c⟩ := c
    obtain ⟨h1, h2, h3⟩ := (Memory.wf_cons ..).1 h
    rw [Memory.write_cons]
    split
    · refine (Memory.wf_cons ..).2 ⟨ha, fun d hd => ?_, h⟩
      rcases List.mem_cons.1 hd with rfl | hd
      · assumption
      · have := h2 d hd; omega
    · split
      · subst a; exact (Memory.wf_cons ..).2 ⟨h1, h2, h3⟩
      · refine (Memory.wf_cons ..).2 ⟨h1, fun d hd => ?_, ih h3⟩
        rcases Memory.mem_write hd with hd | rfl
        · exact h2 d hd
        · show k < a; omega

/-- Writing bytes inside the store keeps the canonical form. -/
theorem Memory.writeBytes_wf {bs : List Byte} {m : Memory} {a : Nat} (ha : a + bs.length ≤ rkBytes)
    (h : Memory.wf m = true) : Memory.wf (Memory.writeBytes m a bs) = true := by
  induction bs generalizing m a with
  | nil => exact h
  | cons v bs ih =>
    simp only [List.length_cons] at ha
    exact ih (by omega) (Memory.write_wf v (by omega) h)

/-- Two stores in canonical form that read the same at every address are the same list. -/
theorem Memory.eq_of_read {m n : Memory} (hm : Memory.wf m = true) (hn : Memory.wf n = true)
    (h : ∀ a, Memory.read m a = Memory.read n a) : m = n := by
  have head : ∀ {k : Nat} {b : Byte} {m : Memory} (a : Nat), Memory.wf ((k, b) :: m) = true → a < k →
      Memory.read ((k, b) :: m) a = none := by
    intro k b m a hw ha
    induction m generalizing k b with
    | nil => simp [Memory.read_cons]; omega
    | cons c m ih =>
      obtain ⟨j, c⟩ := c
      obtain ⟨-, h2, h3⟩ := (Memory.wf_cons ..).1 hw
      have : k < j := h2 (j, c) (by simp)
      rw [Memory.read_cons, if_neg (by omega)]
      exact ih h3 (by omega)
  induction m generalizing n with
  | nil =>
    cases n with
    | nil => rfl
    | cons c n => obtain ⟨k, c⟩ := c; have := h k; simp [Memory.read_cons] at this
  | cons c m ih =>
    obtain ⟨k, c⟩ := c
    cases n with
    | nil => have := h k; simp [Memory.read_cons] at this
    | cons d n =>
      obtain ⟨j, d⟩ := d
      have hkj : k = j := by
        rcases Nat.lt_trichotomy k j with hlt | heq | hgt
        · have := h k; rw [head k hn hlt] at this; simp [Memory.read_cons] at this
        · exact heq
        · have := h j; rw [head j hm hgt] at this; simp [Memory.read_cons] at this
      subst hkj
      have hcd : c = d := by have := h k; simpa [Memory.read_cons] using this
      subst hcd
      obtain ⟨-, h2, h3⟩ := (Memory.wf_cons ..).1 hm
      obtain ⟨-, g2, g3⟩ := (Memory.wf_cons ..).1 hn
      have tail : ∀ {p : Memory}, Memory.wf p = true → (∀ x ∈ p, k < x.1) → Memory.read p k = none := by
        intro p hp hx
        cases p with
        | nil => rfl
        | cons e p => obtain ⟨i, e⟩ := e; exact head k hp (hx (i, e) (by simp))
      rw [ih h3 g3 fun a => ?_]
      by_cases ha : k = a
      · subst ha; rw [tail h3 h2, tail g3 g2]
      · have := h a; simpa [Memory.read_cons, ha] using this

/-! ### Words of the store -/

/-- What a word write does to each byte: the four bytes of the word at `4i` to `4i + 3`, most significant first, and
nothing else. -/
theorem State.memByte_writeRkWord (s : State) (i : Nat) (v : Word) (a : Nat) :
    (s.writeRkWord i v).memByte a =
      if a = 4 * i then wordByte v 0 else if a = 4 * i + 1 then wordByte v 1
      else if a = 4 * i + 2 then wordByte v 2 else if a = 4 * i + 3 then wordByte v 3 else s.memByte a := by
  simp only [State.memByte, State.writeRkWord_rk, State.writeRkWord_rkEra, Memory.writeBytes, Memory.read_write]
  split_ifs <;> first | omega | rfl

/-- A word write inside the store keeps the canonical form. -/
theorem State.writeRkWord_wf (s : State) {i : Nat} (v : Word) (hi : i ≤ 43) (h : s.rk.wf = true) :
    (s.writeRkWord i v).rk.wf = true := by
  rw [State.writeRkWord_rk]
  exact Memory.writeBytes_wf (by simp [rkBytes]; omega) h

end Sys2Proof.Machine
end

