-- ==== Sys2Proof/Laws/Store.lean ====
section
/-! SUPPORT. Words and round keys of the store after a write, and what the sequencer and the loop of KEYEXP do: one lemma for
each shared operation. -/

namespace Sys2Proof.Machine

/-! ### Words and round keys -/

/-- What a word write does to each word: the word written, and nothing else. -/
theorem State.rkWord_writeRkWord (s : State) (i : Nat) (v : Word) (j : Nat) :
    (s.writeRkWord i v).rkWord j = if j = i then v else s.rkWord j := by
  simp only [State.rkWord, State.memByte_writeRkWord]
  by_cases h : j = i
  · subst h
    simp
  · rw [if_neg h]
    congr 1 <;> split_ifs <;> first | omega | rfl

/-- A round key is four words of the store, put side by side. -/
theorem State.rkey_eq_ofCols (s : State) (r : Nat) :
    s.rkey r = ofCols (s.rkWord (4 * r)) (s.rkWord (4 * r + 1)) (s.rkWord (4 * r + 2)) (s.rkWord (4 * r + 3)) := by
  simp only [State.rkey, mkBlock, State.rkWord, Nat.mul_add, ← Nat.mul_assoc]
  rfl

/-! ### The sequencer (R228) -/

@[simp] theorem runRounds_nil (work : State → State) (s : State) : runRounds work [] s = s := rfl

theorem runRounds_cons (work : State → State) (r : BitVec 4) (rs : List (BitVec 4)) (s : State) :
    runRounds work (r :: rs) s = runRounds work rs (work { s with rnd := r }) := rfl

theorem runRounds_append (work : State → State) (l l' : List (BitVec 4)) (s : State) :
    runRounds work (l ++ l') s = runRounds work l' (runRounds work l s) := by
  induction l generalizing s with
  | nil => rfl
  | cons r l ih => rw [List.cons_append, runRounds_cons, runRounds_cons, ih]

/-- What every round keeps, a whole run of rounds keeps. -/
theorem runRounds_keeps {P : State → Prop} {work : State → State} {l : List (BitVec 4)} {s : State}
    (h : ∀ r ∈ l, ∀ u, P u → P (work { u with rnd := r })) (hs : P s) : P (runRounds work l s) := by
  induction l generalizing s with
  | nil => exact hs
  | cons r l ih =>
    exact ih (fun q hq => h q (List.mem_cons_of_mem _ hq)) (h r (List.mem_cons_self ..) s hs)

/-! ### KEYEXP (R176) -/

/-- Loading the key touches the store only. -/
theorem State.loadKey_frame (s : State) (k : Block) : s.loadKey k = { s with rk := (s.loadKey k).rk } := by
  simp only [State.loadKey, State.writeRkWord]

/-- A round of KEYEXP touches the store only. -/
theorem keyexpRound_frame (s : State) : keyexpRound s = { s with rk := (keyexpRound s).rk } := by
  simp only [keyexpRound, State.writeRkWord]

/-- Loading the key keeps the canonical form. -/
theorem State.loadKey_wf {s : State} (k : Block) (h : s.rk.wf = true) : (s.loadKey k).rk.wf = true := by
  simp only [State.loadKey]
  iterate 4 refine State.writeRkWord_wf _ _ (by omega) ?_
  exact h

/-- A round of KEYEXP keeps the canonical form. -/
theorem keyexpRound_wf {s : State} (hr : s.rnd.toNat ≤ 10) (h : s.rk.wf = true) :
    (keyexpRound s).rk.wf = true := by
  simp only [keyexpRound]
  iterate 4 refine State.writeRkWord_wf _ _ (by omega) ?_
  exact h

/-- A round of KEYEXP makes round key `r` of round key `r - 1` and leaves every other round key alone. -/
theorem keyexpRound_rkey (s : State) (r : Nat) (hr : s.rnd.toNat = r) (h1 : 1 ≤ r) (j : Nat) :
    (keyexpRound s).rkey j = if j = r then keyRound (s.rkey (r - 1)) r else s.rkey j := by
  obtain ⟨r, rfl⟩ : ∃ q, r = q + 1 := ⟨r - 1, by omega⟩
  have e : ∀ m k : Nat, m ≠ k → ∀ u v : Word, (if m = k then u else v) = v := fun m k h u v => if_neg h
  by_cases h : j = r + 1
  · subst h
    rw [if_pos rfl, State.rkey_eq_ofCols, State.rkey_eq_ofCols]
    simp only [keyexpRound, hr, State.rkWord_writeRkWord, keyRound, col_ofCols_0, col_ofCols_1, col_ofCols_2,
      col_ofCols_3, Nat.add_sub_cancel, Nat.mul_add]
    simp
  · rw [if_neg h, State.rkey_eq_ofCols, State.rkey_eq_ofCols]
    simp only [keyexpRound, hr, State.rkWord_writeRkWord]
    congr 1 <;> simp (disch := omega) only [e]

end Sys2Proof.Machine
end

