-- ==== Sys2Proof/Laws/Exec.lean ====
section
/-! SUPPORT. What executing a command can do, said once: every execution has a next state, and it is a fault entry, the work of a
KEYEXP, or a new accumulator. Provers cite these and unfold no meaning. -/

namespace Sys2Proof.Machine

/-! ### The shared operations -/

theorem checked_some (c : Cause) (s : State) (work : State → State) :
    checked (some c) s work = .next (s.faultEntry c) := rfl

theorem checked_none (s : State) (work : State → State) : checked none s work = .next (work s) := rfl

theorem keyFault_keyed {s : State} (h : s.kv = true) : keyFault s = none := by simp [keyFault, h]

theorem keyFault_unkeyed {s : State} (h : s.kv = false) : keyFault s = some .noKey := by simp [keyFault, h]

theorem indexKeyFault_high {r : Nat} (s : State) (h : 10 < r) : indexKeyFault r s = some .ridxRange := if_pos h

theorem indexKeyFault_low {r : Nat} (s : State) (h : r ≤ 10) : indexKeyFault r s = keyFault s :=
  if_neg (by omega)

theorem byteCommand_next (f : Byte → Byte) (src : Src) (s : State) :
    byteCommand f src s = .next { s with acc := zextByte (f (s.byteOperand src)), rnd := 0#4, busy := false } := rfl

theorem wordCommand_next (f : Word → Word) (src : Src) (s : State) :
    wordCommand f src s = .next { s with acc := zextWord (f (s.wordOperand src)), rnd := 0#4, busy := false } := rfl

theorem blockCommand_next (f : Block → Block) (src : Src) (s : State) :
    blockCommand f src s = .next { s with acc := f (s.operand src), rnd := 0#4, busy := false } := rfl

/-- A round of ENC changes the accumulator only. -/
theorem encRound_frame (s : State) : encRound s = { s with acc := (encRound s).acc } := rfl

/-- A round of DEC changes the accumulator only. -/
theorem decRound_frame (s : State) : decRound s = { s with acc := (decRound s).acc } := rfl

/-- The rounds of KEYEXP change the store and the round counter only. -/
theorem runRounds_keyexp_frame (l : List (BitVec 4)) (s : State) :
    runRounds keyexpRound l s =
      { s with rk := (runRounds keyexpRound l s).rk, rnd := (runRounds keyexpRound l s).rnd } := by
  induction l generalizing s with
  | nil => rfl
  | cons r l ih => rw [runRounds_cons, ih, keyexpRound_frame]

/-- What KEYEXP does, but for the contents of the store. -/
theorem execKeyexp_next (src : Src) (s : State) :
    ∃ m, execKeyexp src s = .next { s with rk := m, kv := true, rnd := 0#4, busy := false } := by
  have h := runRounds_keyexp_frame keyexpOrder (s.begin.loadKey (s.operand src))
  unfold execKeyexp
  generalize runRounds keyexpRound keyexpOrder (s.begin.loadKey (s.operand src)) = u at h ⊢
  rw [State.loadKey_frame] at h
  exact ⟨u.rk, by rw [h]; rfl⟩

/-! ### Inversion -/

/-- Everything the execution of a command can do. -/
theorem exec_cases (i : Instr) (s : State) :
    (∃ c, faultOf i s = some c ∧ exec i s = .next (s.faultEntry c)) ∨
    (faultOf i s = none ∧ (∃ src, i = .keyexp src) ∧
      ∃ m, exec i s = .next { s with rk := m, kv := true, rnd := 0#4, busy := false }) ∨
    (faultOf i s = none ∧ (∀ src, i ≠ .keyexp src) ∧ ∃ v, exec i s = .next (s.finish v)) := by
  have hc : ∀ (f : Option Cause) (work : State → State), (∃ v, work s = s.finish v) →
      (∃ c, f = some c ∧ checked f s work = .next (s.faultEntry c)) ∨
      (f = none ∧ ∃ v, checked f s work = .next (s.finish v)) := by
    intro f work ⟨v, hv⟩
    cases f with
    | some c => exact .inl ⟨c, rfl, rfl⟩
    | none => exact .inr ⟨rfl, v, by rw [checked_none, hv]⟩
  cases i with
  | keyexp src => exact .inr (.inl ⟨rfl, ⟨src, rfl⟩, execKeyexp_next src s⟩)
  | rdrk r =>
    rcases hc (indexKeyFault r s) (fun s => s.finish (s.rkey r)) ⟨_, rfl⟩ with h | h
    · exact .inl h
    · exact .inr (.inr ⟨h.1, by simp, h.2⟩)
  | ark src r =>
    rcases hc (indexKeyFault r s) (fun s => s.finish (addRoundKey (s.operand src) (s.rkey r))) ⟨_, rfl⟩ with h | h
    · exact .inl h
    · exact .inr (.inr ⟨h.1, by simp, h.2⟩)
  | enc src =>
    rcases hc (keyFault s)
        (fun s => (runRounds encRound encOrder { s.begin with acc := s.operand src }).complete) ⟨_, rfl⟩ with h | h
    · exact .inl h
    · exact .inr (.inr ⟨h.1, by simp, h.2⟩)
  | dec src =>
    rcases hc (keyFault s)
        (fun s => (runRounds decRound decOrder { s.begin with acc := s.operand src }).complete) ⟨_, rfl⟩ with h | h
    · exact .inl h
    · exact .inr (.inr ⟨h.1, by simp, h.2⟩)
  | _ => exact .inr (.inr ⟨rfl, by simp, _, rfl⟩)

/-- Executing a command always has a next state (R265). -/
theorem exec_next (i : Instr) (s : State) : ∃ t, exec i s = .next t := by
  rcases exec_cases i s with ⟨c, -, h⟩ | ⟨-, -, m, h⟩ | ⟨-, -, v, h⟩ <;> exact ⟨_, h⟩

/-! ### The four ways a step goes -/

theorem step_reset {s : State} (h : s.port.rst = true) : step s = .next s.applyReset.advance := by simp [step, h]

theorem step_waits {s : State} (hr : s.port.rst = false) (ha : s.accepts = false) : step s = .next s.advance := by
  simp [step, hr, ha]

theorem step_illegal {s : State} {e : Illegal} (hr : s.port.rst = false) (ha : s.accepts = true)
    (hd : decode s.port.cw = .error e) : step s = .next (s.faultEntry .illegalCmd).advance := by
  simp [step, hr, ha, hd]

theorem step_runs {s : State} {i : Instr} (hr : s.port.rst = false) (ha : s.accepts = true)
    (hd : decode s.port.cw = .ok i) : step s = andAdvance (exec i s) := by
  simp [step, hr, ha, hd]

/-- When a command is accepted (R30). -/
theorem State.accepts_iff (s : State) :
    s.accepts = true ↔ s.port.rst = false ∧ s.port.cmdValid = true ∧ s.busy = false ∧ s.err = false := by
  simp [State.accepts, State.cmdReady, and_assoc]

end Sys2Proof.Machine
end

