-- ==== Sys2Proof/Laws/Field.lean ====
section
/-! SUPPORT. The field functions are linear over XOR (spec/40_gf256.md R119, first lines), and what the GF commands compute. -/

namespace Sys2Proof.Machine

/-- Doubling is linear over XOR: the shift is, and the reduction depends on one bit of the input. -/
@[simp] theorem dbl_xor (x y : Byte) : dbl (x ^^^ y) = dbl x ^^^ dbl y := by
  simp only [dbl, BitVec.getLsbD_xor]
  cases x.getLsbD 7 <;> cases y.getLsbD 7 <;> ext i hi <;> simp <;> grind

end Sys2Proof.Machine
end

