-- ==== Sys2Proof/Laws/PerInstr.lean ====
section
/-! SUPPORT. One statement about the syntax, per command: its word carries the bits its row of the opcode table fixes
(spec/30_encoding.md R78, R79). -/

namespace Sys2Proof.Laws.Table

/-- The word of a well-formed command has, under the mask of its row, the row's pattern. -/
def Statement (i : Instr) : Prop := WellFormed i → encode i &&& i.row.mask = i.row.pattern

theorem gf2 (src : Src) : Statement (.gf2 src) := fun _ => by cases src <;> rfl
theorem gf3 (src : Src) : Statement (.gf3 src) := fun _ => by cases src <;> rfl
theorem gf4 (src : Src) : Statement (.gf4 src) := fun _ => by cases src <;> rfl
theorem gf8 (src : Src) : Statement (.gf8 src) := fun _ => by cases src <;> rfl
theorem gf9 (src : Src) : Statement (.gf9 src) := fun _ => by cases src <;> rfl
theorem gf11 (src : Src) : Statement (.gf11 src) := fun _ => by cases src <;> rfl
theorem gf13 (src : Src) : Statement (.gf13 src) := fun _ => by cases src <;> rfl
theorem gf14 (src : Src) : Statement (.gf14 src) := fun _ => by cases src <;> rfl
theorem sboxb (src : Src) : Statement (.sboxb src) := fun _ => by cases src <;> rfl
theorem isboxb (src : Src) : Statement (.isboxb src) := fun _ => by cases src <;> rfl
theorem subw (src : Src) : Statement (.subw src) := fun _ => by cases src <;> rfl
theorem mixcol (src : Src) : Statement (.mixcol src) := fun _ => by cases src <;> rfl
theorem imixcol (src : Src) : Statement (.imixcol src) := fun _ => by cases src <;> rfl
theorem keyexp (src : Src) : Statement (.keyexp src) := fun _ => by cases src <;> rfl
theorem rdrk (ridx : Nat) : Statement (.rdrk ridx) := fun h => by
  have : ridx < 16 := of_decide_eq_true h
  interval_cases ridx <;> rfl
theorem ark (src : Src) (ridx : Nat) : Statement (.ark src ridx) := fun h => by
  have : ridx < 16 := of_decide_eq_true h
  cases src <;> interval_cases ridx <;> rfl
theorem subbytes (src : Src) : Statement (.subbytes src) := fun _ => by cases src <;> rfl
theorem isubbytes (src : Src) : Statement (.isubbytes src) := fun _ => by cases src <;> rfl
theorem shiftrows (src : Src) : Statement (.shiftrows src) := fun _ => by cases src <;> rfl
theorem ishiftrows (src : Src) : Statement (.ishiftrows src) := fun _ => by cases src <;> rfl
theorem mixcols (src : Src) : Statement (.mixcols src) := fun _ => by cases src <;> rfl
theorem imixcols (src : Src) : Statement (.imixcols src) := fun _ => by cases src <;> rfl
theorem enc (src : Src) : Statement (.enc src) := fun _ => by cases src <;> rfl
theorem dec (src : Src) : Statement (.dec src) := fun _ => by cases src <;> rfl

end Sys2Proof.Laws.Table
end

