-- ==== Sys2Proof/Tests/Slice0.lean ====
section
/-! SUPPORT. Tests, and one witness for each statement of Certificates/Slice0/Obligations.lean that has hypotheses. Every
expected value comes from spec/ (the vector or rule is named beside it); none is the model's own answer. -/

namespace Sys2Proof.Tests

open Sys2Proof.Machine

/-! ### Small states -/

/-- The reset state with a value on `din`. -/
def fed (d : Block) : State := { State.reset with port := { HostPort.quiet with din := d } }

/-- A state with a value in the accumulator and all ones on `din`. -/
def holding (v : Block) : State :=
  { State.reset with acc := v, port := { HostPort.quiet with din := 0xffffffffffffffffffffffffffffffff#128 } }

/-- The bytes of some blocks listed at rising addresses. -/
def listed : Nat → List Block → Memory
  | _, [] => []
  | r, v :: vs => (List.finRange 16).map (fun i => (16 * r + i.val, blockByte v i)) ++ listed (r + 1) vs

/-- The schedule of "Thats my Kung Fu" (V3). -/
def kungFuKeys : List Block :=
  [0x5468617473206d79204b756e67204675#128, 0xe232fcf191129188b159e4e6d679a293#128,
   0x56082007c71ab18f76435569a03af7fa#128, 0xd2600de7157abc686339e901c3031efb#128,
   0xa11202c9b468bea1d75157a01452495b#128, 0xb1293b3305418592d210d232c6429b69#128,
   0xbd3dc287b87c47156a6c9527ac2e0e4e#128, 0xcc96ed1674eaaa031e863f24b2a8316a#128,
   0x8e51ef21fabb4522e43d7a0656954b6c#128, 0xbfe2bf904559fab2a16480b4f7f1cbd8#128,
   0x28fddef86da4244accc0a4fe3b316f26#128]

/-- A keyed state with that schedule in the store and a value on `din`. -/
def keyed (d : Block) : State := { fed d with rk := listed 0 kungFuKeys, kv := true }

/-- The accumulator after a step or an execution. -/
def accOf : Host.Outcome State Fault Refusal → Option Block
  | .next t => some t.acc
  | _ => none

/-- `ERR` and `ECAUSE` after a step or an execution. -/
def errOf : Host.Outcome State Fault Refusal → Option (Bool × BitVec 2)
  | .next t => some (t.err, t.ecause)
  | _ => none

/-- The accumulator after the step that runs a command word. -/
def accAfter (s : State) (cw : Nat) : Option Block := accOf (step (s.withFetchWord 16 cw))

/-- `ERR` and `ECAUSE` after the step that runs a command word. -/
def errAfter (s : State) (cw : Nat) : Option (Bool × BitVec 2) := errOf (step (s.withFetchWord 16 cw))

/-! ### Well-formedness -/

theorem test_wellFormed_refuses_rdrk_index_16 : ¬ WellFormed (.rdrk 16) := by decide
theorem test_wellFormed_refuses_ark_index_16 : ¬ WellFormed (.ark .acc 16) := by decide
theorem test_wellFormed_takes_index_15 : WellFormed (.rdrk 15) ∧ WellFormed (.ark .din 15) := by decide

/-! ### Decoding: every constructor, each word written out field by field, OP SRC 000 RIDX (R71, R79) -/

theorem test_decode_gf_unit :
    decode 0b0001001000000000#16 = .ok (.gf2 .din) ∧ decode 0b0001001010000000#16 = .ok (.gf2 .acc) ∧
    decode 0b0001001100000000#16 = .ok (.gf3 .din) ∧ decode 0b0001010010000000#16 = .ok (.gf4 .acc) ∧
    decode 0b0001100000000000#16 = .ok (.gf8 .din) ∧ decode 0b0001100110000000#16 = .ok (.gf9 .acc) ∧
    decode 0b0001101100000000#16 = .ok (.gf11 .din) ∧ decode 0b0001110110000000#16 = .ok (.gf13 .acc) ∧
    decode 0b0001111000000000#16 = .ok (.gf14 .din) := by decide
theorem test_decode_sbox_unit :
    decode 0b0010000000000000#16 = .ok (.sboxb .din) ∧ decode 0b0010000110000000#16 = .ok (.isboxb .acc) ∧
    decode 0b0010001010000000#16 = .ok (.subw .acc) := by decide
theorem test_decode_column_unit :
    decode 0b0011000010000000#16 = .ok (.mixcol .acc) ∧ decode 0b0011000100000000#16 = .ok (.imixcol .din) := by
  decide
theorem test_decode_key_unit :
    decode 0b0100000000000000#16 = .ok (.keyexp .din) ∧ decode 0b0100000010000000#16 = .ok (.keyexp .acc) ∧
    decode 0b0100000100000000#16 = .ok (.rdrk 0) ∧ decode 0b0100000100001010#16 = .ok (.rdrk 10) ∧
    decode 0b0100000100001111#16 = .ok (.rdrk 15) := by decide
theorem test_decode_round_unit :
    decode 0b0101000000001010#16 = .ok (.ark .din 10) ∧ decode 0b0101000010000001#16 = .ok (.ark .acc 1) ∧
    decode 0b0101001010000000#16 = .ok (.subbytes .acc) ∧ decode 0b0101001100000000#16 = .ok (.isubbytes .din) ∧
    decode 0b0101010010000000#16 = .ok (.shiftrows .acc) ∧ decode 0b0101010100000000#16 = .ok (.ishiftrows .din) ∧
    decode 0b0101011000000000#16 = .ok (.mixcols .din) ∧ decode 0b0101011110000000#16 = .ok (.imixcols .acc) := by
  decide
theorem test_decode_cipher_unit :
    decode 0b0110000010000000#16 = .ok (.enc .acc) ∧ decode 0b0110000100000000#16 = .ok (.dec .din) := by decide

/-- R81 names these OP values, the all-zero word and the all-ones word. -/
theorem test_decode_unused_op :
    [0x0000#16, 0x1000#16, 0x1100#16, 0x1500#16, 0x1600#16, 0x1700#16, 0x1A00#16, 0x1C00#16, 0x1F00#16, 0x2300#16,
      0x3200#16, 0x4200#16, 0x5100#16, 0x5800#16, 0x6200#16].all
      (fun cw => decide (decode cw = .error (.unusedOp (opField cw)))) = true ∧
    decode 0xFFFF#16 = .error .reservedBits := by decide

/-- R78: each must-be-zero bit. -/
theorem test_decode_must_be_zero :
    decode 0x1210#16 = .error .reservedBits ∧ decode 0x4120#16 = .error .reservedBits ∧
    decode 0x5040#16 = .error .reservedBits ∧ decode 0x6001#16 = .error .indexBits ∧
    decode 0x4008#16 = .error .indexBits ∧ decode 0x4180#16 = .error .srcBit := by decide

theorem test_decodeTableWord : decodeTableWord 16 0x508A = some (.ark .acc 10) ∧ decodeTableWord 16 0x5801 = none := by
  decide

/-! ### The GF(2^8) multiplier (V11, V7) -/

theorem test_gf2 : accAfter (fed 0xffffffffffffffffffffffffffffff57#128) 0x1200 = some 0xae#128 := by decide
theorem test_gf2_acc_reduces : accAfter (holding 0x80#128) 0x1280 = some 0x1b#128 := by decide
theorem test_gf3 : accAfter (fed 0x57#128) 0x1300 = some 0xf9#128 := by decide
theorem test_gf3_acc : accAfter (holding 0x80#128) 0x1380 = some 0x9b#128 := by decide
theorem test_gf4 : accAfter (fed 0x57#128) 0x1400 = some 0x47#128 := by decide
theorem test_gf4_acc : accAfter (holding 0xdb#128) 0x1480 = some 0x41#128 := by decide
theorem test_gf8 : accAfter (fed 0x57#128) 0x1800 = some 0x8e#128 := by decide
theorem test_gf8_acc : accAfter (holding 0xff#128) 0x1880 = some 0xb9#128 := by decide
theorem test_gf9 : accAfter (fed 0x57#128) 0x1900 = some 0xd9#128 := by decide
theorem test_gf9_acc : accAfter (holding 0x80#128) 0x1980 = some 0xec#128 := by decide
theorem test_gf11 : accAfter (fed 0x57#128) 0x1B00 = some 0x77#128 := by decide
theorem test_gf11_acc : accAfter (holding 0xc6#128) 0x1B80 = some 0x3b#128 := by decide
theorem test_gf13 : accAfter (fed 0x57#128) 0x1D00 = some 0x9e#128 := by decide
theorem test_gf13_acc : accAfter (holding 0xdb#128) 0x1D80 = some 0x18#128 := by decide
theorem test_gf14 : accAfter (fed 0xffffffffffffffffffffffffffffff57#128) 0x1E00 = some 0x67#128 := by decide
theorem test_gf14_acc : accAfter (holding 0xff#128) 0x1E80 = some 0x8d#128 := by decide
theorem test_gfmul_worked_product : gfmul 0x57#8 0x13#8 = 0xfe#8 := by decide

/-! ### The S-box (V10, V12) -/

theorem test_sboxb : accAfter (fed 0xffffffffffffffffffffffffffffff53#128) 0x2000 = some 0xed#128 := by decide
theorem test_sboxb_acc : accAfter (holding 0xc6#128) 0x2080 = some 0xb4#128 := by decide
theorem test_isboxb : accAfter (fed 0xed#128) 0x2100 = some 0x53#128 := by decide
theorem test_isboxb_acc : accAfter (holding 0xdb#128) 0x2180 = some 0x9f#128 := by decide
theorem test_subw : accAfter (fed 0x09cf4f3c#128) 0x2200 = some 0x018a84eb#128 := by decide
theorem test_subw_acc : accAfter (holding 0xffffffffffffffffffffffff00010203#128) 0x2280 = some 0x637c777b#128 := by
  decide

/-! ### Columns (V13) -/

theorem test_mixcol : accAfter (fed 0xffffffffffffffffffffffffdb135345#128) 0x3000 = some 0x8e4da1bc#128 := by decide
theorem test_mixcol_acc_byte_order : accAfter (holding 0x455313db#128) 0x3080 = some 0xb70d4622#128 := by decide
theorem test_imixcol : accAfter (fed 0x8e4da1bc#128) 0x3100 = some 0xdb135345#128 := by decide
theorem test_imixcol_acc : accAfter (holding 0xd4bf5d30#128) 0x3180 = some 0x265ca3df#128 := by decide

/-! ### The key schedule (V3, V12, P4) -/

theorem test_gWord : gWord 0x67204675#32 1 = 0xb65a9d85#32 ∧ gWord 0xffffffff#32 9 = 0x0d161616#32 ∧
    gWord 0xffffffff#32 10 = 0x20161616#32 := by decide
theorem test_rotWord : rotWord 0x09cf4f3c#32 = 0xcf4f3c09#32 := by decide

/-- KEYEXP of "Thats my Kung Fu" (V3): the store, byte for byte, `KV` and an unchanged `ACC`. -/
theorem test_keyexp : (match exec (.keyexp .din) { fed 0x5468617473206d79204b756e67204675#128 with acc := 0xae#128 } with
    | .next t => t.rk == listed 0 kungFuKeys && t.kv && t.acc == 0xae#128
    | _ => false) = true := by decide +kernel

theorem test_rdrk_first : accAfter (keyed 0#128) 0x4100 = some 0x5468617473206d79204b756e67204675#128 := by
  decide +kernel
theorem test_rdrk_last : accAfter (keyed 0#128) 0x410A = some 0x28fddef86da4244accc0a4fe3b316f26#128 := by
  decide +kernel

/-! ### Round transforms (V1, V14, R200) -/

theorem test_ark : accAfter (keyed 0x54776f204f6e65204e696e652054776f#128) 0x5000 =
    some 0x001f0e543c4e08596e221b0b4774311a#128 := by decide +kernel
theorem test_ark_of_zero_is_the_round_key : accOf (exec (.ark .acc 10) (keyed 0#128)) =
    some 0x28fddef86da4244accc0a4fe3b316f26#128 := by decide +kernel
theorem test_subbytes : accAfter (fed 0xdb135345f20a225c01010101c6c6c6c6#128) 0x5200 =
    some 0xb97ded6e8967934a7c7c7c7cb4b4b4b4#128 := by decide
theorem test_isubbytes : accAfter (holding 0x00112233445566778899aabbccddeeff#128) 0x5380 =
    some 0x52e3946686edd30297f962fe27c9997d#128 := by decide
theorem test_shiftrows : accAfter (fed 0x000102030405060708090a0b0c0d0e0f#128) 0x5400 =
    some 0x00050a0f04090e03080d02070c01060b#128 := by decide
theorem test_ishiftrows : accAfter (holding 0x00050a0f04090e03080d02070c01060b#128) 0x5580 =
    some 0x000102030405060708090a0b0c0d0e0f#128 := by decide
theorem test_mixcols : accAfter (fed 0xdb135345f20a225c01010101c6c6c6c6#128) 0x5600 =
    some 0x8e4da1bc9fdc589d01010101c6c6c6c6#128 := by decide
theorem test_imixcols : accAfter (holding 0x8e4da1bc9fdc589d01010101c6c6c6c6#128) 0x5780 =
    some 0xdb135345f20a225c01010101c6c6c6c6#128 := by decide

/-! ### The cipher (V5, P2, P3) -/

theorem test_enc : accAfter (keyed 0x54776f204f6e65204e696e652054776f#128) 0x6000 =
    some 0x29c3505f571420f6402299b31a02d73a#128 := by decide +kernel
theorem test_dec : accAfter (keyed 0x29c3505f571420f6402299b31a02d73a#128) 0x6100 =
    some 0x54776f204f6e65204e696e652054776f#128 := by decide +kernel

/-! ### Faults, the locked core and reset (R266, P6, P7) -/

theorem test_illegal_words_fault : errAfter (fed 0#128) 0x0000 = some (true, 1#2) ∧
    errAfter (fed 0#128) 0x6010 = some (true, 1#2) := by decide
theorem test_index_above_ten_faults_before_no_key : errAfter (fed 0#128) 0x410C = some (true, 2#2) ∧
    errAfter (keyed 0#128) 0x508B = some (true, 2#2) := by decide
theorem test_key_commands_without_key_fault : errAfter (fed 0#128) 0x410A = some (true, 3#2) ∧
    errAfter (fed 0#128) 0x5080 = some (true, 3#2) ∧ errAfter (fed 0#128) 0x6000 = some (true, 3#2) ∧
    errAfter (fed 0#128) 0x6180 = some (true, 3#2) := by decide
theorem test_fault_keeps_acc : accOf (exec (.enc .din) (holding 0xae#128)) = some 0xae#128 := by decide

/-- The state after a NO_KEY fault refuses the next command (P6). -/
theorem test_locked_core_refuses :
    accAfter { holding 0xae#128 with err := true, ecause := 3#2 } 0x1300 = some 0xae#128 ∧
    errAfter { holding 0xae#128 with err := true, ecause := 3#2 } 0x1300 = some (true, 3#2) := by decide
theorem test_reset_unlocks :
    errOf (step { holding 0xae#128 with
      err := true, ecause := 3#2, port := { HostPort.quiet with rst := true, cmdValid := true, cw := 0x1300#16 } }) =
      some (false, 0#2) := by decide

/-- The status values that the end states of P2, P6 and P7 show. -/
theorem test_status : (keyed 0#128).status = 0x02#8 ∧
    { State.reset with err := true, ecause := 3#2 }.status = 0x1C#8 ∧
    { State.reset with kv := true, err := true, ecause := 2#2 }.status = 0x16#8 := by decide

theorem test_reset_store_canonical : Memory.wf State.reset.rk = true := by decide
theorem test_schedule_store_canonical_and_full : Memory.wf (keyed 0#128).rk = true ∧ (keyed 0#128).rk.full = true := by
  decide +kernel

/-! ### The clock-level view (R30, R31, R285) -/

/-- The core at an edge at which the host presents `GF2` of `0x57`. -/
def presenting : State := (fed 0x57#128).withFetchWord 16 0x1200

/-- The accepting edge sets `BUSY` and computes nothing yet. -/
theorem test_accepting_edge : (match Clocked.tick ⟨presenting, none⟩ with
    | .next d => d.core.busy && d.core.acc == 0#128 && d.flight.isSome && !d.core.cmdReady
    | _ => false) = true := by decide

/-- The completing edge commits the result from the sampled `din`, whatever `din` is by then. -/
theorem test_completing_edge :
    (match Clocked.tick ⟨{ fed 0xff#128 with busy := true }, some ⟨.gf2 .din, presenting.port, 0⟩⟩ with
    | .next d => d.core.acc == 0xae#128 && !d.core.busy && d.flight.isNone
    | _ => false) = true := by decide

/-- Reset during a command leaves nothing of it. -/
theorem test_reset_while_busy :
    (match Clocked.tick ⟨{ holding 0x01#128 with
      busy := true, port := { HostPort.quiet with rst := true } }, some ⟨.gf2 .din, presenting.port, 0⟩⟩ with
    | .next d => d.core.acc == 0#128 && !d.core.busy && d.flight.isNone
    | _ => false) = true := by decide

/-! ### The command syntax (R84, R85) -/

theorem test_assemble_ark : AsmLine.assemble ⟨"ARK", some 10, some .acc⟩ = some (0x508A#16, 0#128) := by decide
theorem test_assemble_gf2 : AsmLine.assemble ⟨"GF2", none, some (.literal [5, 7])⟩ = some (0x1200#16, 0x57#128) ∧
    AsmLine.assemble ⟨"DBL", none, some (.literal [5, 7])⟩ = some (0x1200#16, 0x57#128) := by decide
theorem test_assemble_refuses_index_16 : AsmLine.assemble ⟨"RDRK", some 16, none⟩ = none ∧
    AsmLine.assemble ⟨"RDRK", some 15, none⟩ = some (0x410F#16, 0#128) := by decide

/-! ### Witnesses: states and operands that meet the hypotheses of the statements

One theorem for each statement that has hypotheses, named after it; each clause has a part, at the ends of its range. -/

theorem witness_DecodeAfterEncode : WellFormed (.ark .acc 15) ∧ WellFormed (.rdrk 0) ∧ WellFormed (.gf2 .din) := by decide

theorem witness_EncodeAfterDecode : decode 0x508F#16 = .ok (.ark .acc 15) ∧ decode 0x6100#16 = .ok (.dec .din) := by decide

theorem witness_OpcodeTableMasks : decode 0x4100#16 = .ok (.rdrk 0) ∧
    0x508F#16 &&& (Instr.ark .din 0).row.mask = (Instr.ark .din 0).row.pattern := by decide

theorem witness_ReservedEncodingsAreIllegal : reservedField 0x1210#16 ≠ 0#3 ∧ reservedField 0x1240#16 ≠ 0#3 ∧
    (opField 0x6108#16 ∈ formatD.map Prod.fst ∧ ridxField 0x6108#16 ≠ 0#4) ∧
    (opField 0x4180#16 = 0x41#8 ∧ (0x4180#16).getLsbD 7 = true) ∧
    (opField 0x6200#16 ∉ formatD.map Prod.fst ∧ opField 0x6200#16 ≠ 0x41#8 ∧ opField 0x6200#16 ≠ 0x50#8) := by decide

/-- Also of the first two clauses of `CheckDecidesTheFault`, with the two theorems after it. -/
theorem witness_StepRunsTheDecodedCommand : presenting.port.rst = false ∧ presenting.port.cmdValid = true ∧
    presenting.busy = false ∧ presenting.err = false ∧ decode presenting.port.cw = .ok (.gf2 .din) ∧
    presenting.host = [] ∧ { presenting with host := [HostPort.quiet] }.host = HostPort.quiet :: [] := by decide

theorem witness_CheckDecidesTheFault : presenting.check = .execute (.gf2 .din) ∧
    (State.reset.withFetchWord 16 0x0000).check = .fault .illegalCmd ∧
    (State.reset.withFetchWord 16 0x410B).check = .fault .ridxRange ∧
    (State.reset.withFetchWord 16 0x508F).check = .fault .ridxRange ∧
    (State.reset.withFetchWord 16 0x410A).check = .fault .noKey ∧
    (State.reset.withFetchWord 16 0x5000).check = .fault .noKey ∧
    (State.reset.withFetchWord 16 0x6080).check = .fault .noKey ∧
    (State.reset.withFetchWord 16 0x6100).check = .fault .noKey := by decide

theorem witness_PresentedWordIsRunNext : State.reset.busy = false ∧ State.reset.err = false ∧
    decodeTableWord 16 0x508F = some (.ark .acc 15) := by decide

theorem witness_NothingAcceptedNothingChanges :
    (State.reset.port.rst = false ∧ State.reset.port.cmdValid = false) ∧
    ({ presenting with busy := true }.port.rst = false ∧ { presenting with busy := true }.busy = true) ∧
    ({ presenting with err := true }.port.rst = false ∧ { presenting with err := true }.err = true) := by decide

/-- Also of `ResetAbandonsTheCommand`. -/
theorem witness_ResetEdge :
    { presenting with err := true, port := { presenting.port with rst := true } }.port.rst = true := by decide

/-- A locked core whose host presents one command after another. -/
theorem witness_LockedUntilReset :
    { presenting with err := true, ecause := 1#2, host := [presenting.port] }.err = true ∧
    presenting.port.rst = false ∧ ∀ p ∈ [presenting.port], p.rst = false := by decide

theorem witness_IndexAndKeyFaults : 10 < 11 ∧ 10 < 15 ∧ (0 ≤ 10 ∧ State.reset.kv = false) ∧ 10 ≤ 10 := by decide

/-- The three ways a command can end, each with its hypotheses. -/
theorem witness_FrameOfEveryCommand : faultOf (.enc .din) State.reset = some .noKey ∧
    errOf (exec (.enc .din) State.reset) = some (true, 3#2) ∧
    faultOf (.gf2 .din) State.reset = none ∧ accOf (exec (.gf2 .din) (fed 0x57#128)) = some 0xae#128 ∧
    (∃ t, exec (.keyexp .din) State.reset = .next t) :=
  ⟨rfl, rfl, rfl, by decide, exec_next _ _⟩

/-- A step that sets `KV`: the host presents KEYEXP to a core that has just been reset. -/
theorem witness_FlagsChangeOnlyAsStated_kv : ∃ t, step (State.reset.withFetchWord 16 0x4000) = .next t ∧
    (State.reset.withFetchWord 16 0x4000).kv = false ∧ t.kv = true := by
  obtain ⟨m, hm⟩ := execKeyexp_next .din (State.reset.withFetchWord 16 0x4000)
  have h := step_runs (s := State.reset.withFetchWord 16 0x4000) (i := .keyexp .din) rfl (by decide) (by decide)
  rw [show exec (.keyexp .din) _ = _ from hm] at h
  exact ⟨_, h, rfl, by simp⟩

/-- Steps that clear `KV` and `ERR`, and one that sets `ERR` and `ECAUSE`. -/
theorem witness_FlagsChangeOnlyAsStated :
    (match step { keyed 0#128 with err := true, ecause := 2#2, port := { HostPort.quiet with rst := true } } with
      | .next t => !t.kv && !t.err
      | _ => false) = true ∧
    errAfter State.reset 0x0000 = some (true, 1#2) := by decide

theorem witness_StatusAndOutputPorts : State.reset.busy = false := by decide

theorem witness_AccOperandIgnoresDin : (∃ build ∈ formatD.map Prod.snd, Instr.dec .acc = build .acc) ∧
    (∃ r, Instr.ark .acc 15 = .ark .acc r) ∧ ∃ r, Instr.rdrk 0 = .rdrk r :=
  ⟨⟨.dec, by simp [formatD], rfl⟩, ⟨15, rfl⟩, 0, rfl⟩

theorem witness_NarrowOperands :
    ((0x57#128).extractLsb' 0 8 = (0xffffffffffffffffffffffffffffff57#128).extractLsb' 0 8 ∧
      Instr.gf2 ∈ [Instr.gf2, .gf3, .gf4, .gf8, .gf9, .gf11, .gf13, .gf14, .sboxb, .isboxb]) ∧
    ((0xdb135345#128).extractLsb' 0 32 = (0xffffffffffffffffffffffffdb135345#128).extractLsb' 0 32 ∧
      Instr.imixcol ∈ [Instr.subw, .mixcol, .imixcol]) :=
  ⟨⟨by decide, by simp⟩, by decide, by simp⟩

theorem witness_BlockLayout : (15 : Fin 16).val = 4 * (3 : Fin 4).val + (3 : Fin 4).val ∧
    (12 : Fin 16).val = (0 : Fin 4).val + 4 * (3 : Fin 4).val := by decide

theorem witness_StoreReadAfterWrite : (43 : Nat) ≠ 0 ∧ (3 < 4 * 1 ∨ 4 * 1 + 4 ≤ 3) ∧ (43 ≤ 43 ∧ State.reset.rk.wf = true) := by
  decide

/-- KEYEXP straight after reset changes the store: nothing was listed and 176 bytes are. -/
theorem witness_OnlyKeyexpWritesTheStore :
    (match exec (.keyexp .din) (fed 0x5468617473206d79204b756e67204675#128) with
    | .next t => t.rk != (fed 0x5468617473206d79204b756e67204675#128).rk
    | _ => false) = true := by decide +kernel

theorem witness_KeyexpStoresTheSchedule : 0 ≤ 10 ∧ 10 ≤ 10 ∧ 176 ≤ 176 ∧ State.reset.rk.wf = true := by decide

theorem witness_ScheduleWordRecurrence : (∃ t, exec (.keyexp .acc) State.reset = .next t) ∧
    (4 ≤ 4 ∧ 4 ≤ 43) ∧ (4 ≤ 43 ∧ 43 ≤ 43) := ⟨exec_next _ _, by decide⟩

theorem witness_KeyRoundCanBeUndone : keyRound 0#128 1 = keyRound 0#128 1 ∧ expand 0#128 10 = expand 0#128 10 := ⟨rfl, rfl⟩

theorem witness_KeyRoundRule : (1 ≤ 1 ∧ 1 ≤ 10) ∧ (1 ≤ 10 ∧ 10 ≤ 10) := by decide

theorem witness_ShiftRowsRule : (0 : Fin 16).val = ((0 : Fin 16).val + 4 * ((0 : Fin 16).val % 4)) % 16 ∧
    (11 : Fin 16).val = ((15 : Fin 16).val + 4 * ((15 : Fin 16).val % 4)) % 16 := by decide

/-- Also of `ArkAddsTheRoundKey`, `EncAndDecResults` and `LayerCommandsReproduceEncAndDec`. -/
theorem witness_RdrkReadsTheRoundKey : (0 ≤ 10 ∧ (keyed 0#128).kv = true) ∧ (10 ≤ 10 ∧ (keyed 0#128).kv = true) :=
  ⟨⟨by decide, rfl⟩, by decide, rfl⟩

theorem witness_GfCommandsMultiply : (Instr.gf14, 14#8) ∈
    [(Instr.gf2, 2#8), (.gf3, 3#8), (.gf4, 4#8), (.gf8, 8#8), (.gf9, 9#8), (.gf11, 11#8), (.gf13, 13#8),
      (.gf14, 14#8)] := by simp

theorem witness_FieldLaws : (mul2, 2#8) ∈ [(mul2, 2#8), (mul3, 3#8), (mul4, 4#8), (mul8, 8#8), (mul9, 9#8),
    (mul11, 11#8), (mul13, 13#8), (mul14, 14#8)] ∧ mul2 0x8d#8 = mul2 0x8d#8 := by simp

theorem witness_RoundConstantsAreDoublings : (1 ≤ 1 ∧ 1 ≤ 9) ∧ (1 ≤ 9 ∧ 9 ≤ 9) := by decide

theorem witness_SubstitutionTablesAreInverse : sbox 0x53#8 = sbox 0x53#8 := rfl

theorem witness_ColumnCommandsMultiplyByMatrix : (Instr.mixcol, matrixF) ∈ [(Instr.mixcol, matrixF), (.imixcol, matrixI)] ∧
    (Instr.imixcol, matrixI) ∈ [(Instr.mixcol, matrixF), (.imixcol, matrixI)] := by simp

theorem witness_LayersCommuteAndAreLinear :
    shiftRows ∈ [shiftRows, invShiftRows, mixColumns, invMixColumns] := by simp

theorem witness_SequencerStates : 0 ≤ 10 ∧ 10 ≤ 10 := by decide

theorem witness_DecryptionRetracesEncryption : (1 ≤ 1 ∧ 1 ≤ 10) ∧ (1 ≤ 10 ∧ 10 ≤ 10) := by decide

theorem witness_EncThenDecRestoresTheBlock : { State.reset with kv := true }.kv = true := rfl

/-- The invariant holds in a keyed state, with the schedule of V3 in the store. -/
theorem keyed_inv : Inv (keyed 0#128) where
  storeWf := test_schedule_store_canonical_and_full.1
  notBusy := rfl
  roundZero := rfl
  causeIffErr := by decide
  keyedStore := fun _ => ⟨test_schedule_store_canonical_and_full.2, by
    have h : ∀ r ∈ List.range 11, (keyed 0#128).rkey r = expand ((keyed 0#128).rkey 0) r := by decide +kernel
    exact fun r hr => h r (by simp; omega)⟩

/-- The invariant holds in a locked state. -/
theorem locked_inv : Inv { State.reset with err := true, ecause := 2#2 } :=
  ⟨by decide, rfl, rfl, by decide, fun h => by cases h⟩

theorem witness_StepKeepsTheInvariant : Inv (keyed 0#128) ∧ Inv { State.reset with err := true, ecause := 2#2 } ∧
    ∃ t, step (keyed 0#128) = .next t := ⟨keyed_inv, locked_inv, _, rfl⟩

theorem witness_UnspecifiedStoreIsNeverSeen : State.reset.kv = false ∧
    ∃ t, exec (.keyexp .din) State.reset = .next t ∧ t.kv = true := by
  obtain ⟨m, hm⟩ := execKeyexp_next .din State.reset
  exact ⟨rfl, _, hm, rfl⟩

/-- Also of `ClockedCommandCommitsTheStep`. -/
theorem witness_NothingChangesWhileBusy : (Clocked.mk presenting none).flight = none ∧ presenting.port.rst = false ∧
    presenting.accepts = true ∧ presenting.check = .execute (.gf2 .din) ∧ (∀ p ∈ presenting.host, p.rst = false) ∧
    0 ≤ presenting.latency ∧ presenting.latency ≤ presenting.latency :=
  ⟨rfl, rfl, by decide, by decide, by decide, Nat.zero_le _, Nat.le_refl _⟩

theorem witness_OtherEdgesAreSteps :
    { presenting with port := { presenting.port with rst := true } }.port.rst = true ∧ State.reset.accepts = false ∧
    (State.reset.withFetchWord 16 0x0000).check = .fault .illegalCmd := by decide

/-- The clock-level invariant holds after reset and while a command is in progress. -/
theorem witness_ClockKeepsTheInvariant : Clocked.Inv ⟨State.reset, none⟩ ∧
    Clocked.Inv ⟨{ State.reset with busy := true }, some ⟨.gf2 .din, presenting.port, 3⟩⟩ ∧
    ∃ d, Clocked.tick ⟨State.reset, none⟩ = .next d :=
  ⟨⟨⟨by decide, rfl, rfl, by decide, fun h => by cases h⟩, rfl, fun _ h => by cases h⟩,
    ⟨⟨by decide, rfl, rfl, by decide, fun h => by cases h⟩, rfl, fun f h => by cases h; exact ⟨rfl, by decide, rfl⟩⟩,
    _, rfl⟩

/-- Lines of each form at the ends of their ranges, with a literal of 1 and one of 32 digits, and commands of each form
with the data values they can have. -/
theorem witness_AssemblerMatchesTheDecoder :
    AsmLine.assemble ⟨"ARK", some 15, some .acc⟩ = some (0x508F#16, 0#128) ∧
    AsmLine.assemble ⟨"RDRK", some 0, none⟩ = some (0x4100#16, 0#128) ∧
    AsmLine.assemble ⟨"DBL", none, some (.literal [15])⟩ = some (0x1200#16, 0xf#128) ∧
    AsmLine.assemble ⟨"SUBW", none, some (.literal [0, 9, 12, 15])⟩ = some (0x2200#16, 0x09cf#128) ∧
    AsmLine.assemble ⟨"ENC", none, some (.literal (List.replicate 32 15))⟩ =
      some (0x6000#16, 0xffffffffffffffffffffffffffffffff#128) ∧
    (WellFormed (.ark .din 15) ∧ (encode (.ark .din 15)).getLsbD 7 = false) ∧
    (WellFormed (.dec .acc) ∧ (encode (.dec .acc)).getLsbD 7 = true ∧ 0#128 = 0#128) ∧
    WellFormed (.rdrk 15) ∧ (List.replicate 32 (15 : Fin 16) ≠ [] ∧ (List.replicate 32 (15 : Fin 16)).length ≤ 32) := by
  decide

end Sys2Proof.Tests
end

section
/-! PROOFS. The numbering of a block (spec/00_scope.md R4, R5, R6). -/

namespace Sys2Proof.Proofs

open Sys2Proof.Machine

/-- The byte at the number `4c + j` is byte `j` of column `c`, for a number given by its value (R5). -/
theorem blockByte_eq_wordByte_col (v : Block) {c j : Fin 4} {i : Fin 16} (h : i.val = 4 * c.val + j.val) :
    blockByte v i = wordByte (col v c) j := by
  rw [wordByte_col]; exact congrArg (blockByte v) (Fin.ext h)

/-- Element `(r, c)` of the state array is the byte at the number `r + 4c`, for a number given by its value (R6). -/
theorem stateElem_eq_blockByte (v : Block) {r c : Fin 4} {i : Fin 16} (h : i.val = r.val + 4 * c.val) :
    stateElem v r c = blockByte v i :=
  congrArg (blockByte v) (Fin.ext h.symm)

/-- Settles O20: the round trips of the bytes and of the columns, the two numberings of a byte, and the two end bytes, which
the definition of `blockByte` gives as bits. -/
theorem blockLayout : Obligations.BlockLayout := by
  unfold Obligations.BlockLayout
  exact ⟨blockByte_mkBlock, mkBlock_blockByte, ofCols_col,
    fun v _ _ _ => blockByte_eq_wordByte_col v, fun v _ _ _ => stateElem_eq_blockByte v, fun _ => ⟨rfl, rfl⟩⟩

end Sys2Proof.Proofs
end

section
/-! PROOFS. What one step does (spec/60_exceptions.md R254, R265; spec/10_state.md R30): the verdict of `check`, the four ways a step
goes, and the statements about single edges, the flags and the output ports. -/

namespace Sys2Proof.Proofs

open Sys2Proof.Machine

/-! ### The verdict (R254) -/

theorem check_of_error {s : State} {e : Illegal} (h : decode s.port.cw = .error e) :
    s.check = .fault .illegalCmd := by
  simp [State.check, h]

theorem check_of_fault {s : State} {i : Instr} {c : Cause} (h : decode s.port.cw = .ok i)
    (hf : faultOf i s = some c) : s.check = .fault c := by
  simp [State.check, h, hf]

theorem check_of_noFault {s : State} {i : Instr} (h : decode s.port.cw = .ok i) (hf : faultOf i s = none) :
    s.check = .execute i := by
  simp [State.check, h, hf]

/-- The command runs exactly when its word decodes to it and it has no fault. -/
theorem check_eq_execute_iff {s : State} {i : Instr} :
    s.check = .execute i ↔ decode s.port.cw = .ok i ∧ faultOf i s = none := by
  refine ⟨fun h => ?_, fun ⟨hd, hf⟩ => check_of_noFault hd hf⟩
  cases hd : decode s.port.cw with
  | error e => rw [check_of_error hd] at h; cases h
  | ok j =>
    cases hf : faultOf j s with
    | some c => rw [check_of_fault hd hf] at h; cases h
    | none => rw [check_of_noFault hd hf] at h; cases h; exact ⟨rfl, hf⟩

/-- The fault of a command depends on the command and `KV` alone (R250). -/
theorem faultOf_congr {s t : State} (h : s.kv = t.kv) (i : Instr) : faultOf i s = faultOf i t := by
  have hk : keyFault s = keyFault t := by simp [keyFault, h]
  cases i <;> simp [faultOf, indexKeyFault, hk]

/-! ### The execution of a command -/

theorem exec_of_fault {i : Instr} {s : State} {c : Cause} (h : faultOf i s = some c) :
    exec i s = .next (s.faultEntry c) := by
  rcases exec_cases i s with ⟨d, hd, he⟩ | ⟨hn, -⟩ | ⟨hn, -⟩
  · rw [he, Option.some.inj (h.symm.trans hd)]
  · rw [h] at hn; cases hn
  · rw [h] at hn; cases hn

/-- A command that has no fault is a KEYEXP, which sets `KV`, or puts a result in `ACC`. -/
theorem exec_of_noFault {i : Instr} {s t : State} (hf : faultOf i s = none) (h : exec i s = .next t) :
    (∃ src m, i = .keyexp src ∧ t = { s with rk := m, kv := true, rnd := 0#4, busy := false }) ∨
    ∃ v, t = s.finish v := by
  rcases exec_cases i s with ⟨c, hc, -⟩ | ⟨-, ⟨src, hi⟩, m, he⟩ | ⟨-, -, v, he⟩
  · rw [hf] at hc; cases hc
  · rw [h] at he; cases he; exact .inl ⟨src, m, hi, rfl⟩
  · rw [h] at he; cases he; exact .inr ⟨v, rfl⟩

/-! ### The step -/

theorem rst_of_accepts {s : State} (h : s.accepts = true) : s.port.rst = false := (s.accepts_iff.1 h).1

theorem accepts_of {s : State} (hr : s.port.rst = false) (hv : s.port.cmdValid = true) (hb : s.busy = false)
    (he : s.err = false) : s.accepts = true :=
  s.accepts_iff.2 ⟨hr, hv, hb, he⟩

/-- An accepted command that faults: fault entry, then the host's next move. -/
theorem step_of_fault {s : State} {c : Cause} (ha : s.accepts = true) (hc : s.check = .fault c) :
    step s = .next (s.faultEntry c).advance := by
  have hr := rst_of_accepts ha
  cases hd : decode s.port.cw with
  | error e => rw [check_of_error hd] at hc; cases hc; exact step_illegal hr ha hd
  | ok i =>
    cases hf : faultOf i s with
    | some d => rw [check_of_fault hd hf] at hc; cases hc; rw [step_runs hr ha hd, exec_of_fault hf]; rfl
    | none => rw [check_of_noFault hd hf] at hc; cases hc

/-- An accepted command that does not fault: its execution, then the host's next move. -/
theorem step_of_execute {s : State} {i : Instr} (ha : s.accepts = true) (hc : s.check = .execute i) :
    ∃ t, exec i s = .next t ∧ step s = .next t.advance := by
  obtain ⟨t, ht⟩ := exec_next i s
  exact ⟨t, ht, by rw [step_runs (rst_of_accepts ha) ha (check_eq_execute_iff.1 hc).1, ht]; rfl⟩

/-- Everything an edge can do at the command level: a reset, nothing accepted, a fault entry, or a whole command. -/
theorem step_cases (s : State) :
    (s.port.rst = true ∧ step s = .next s.applyReset.advance) ∨
    (s.port.rst = false ∧ s.accepts = false ∧ step s = .next s.advance) ∨
    (s.accepts = true ∧ ∃ c, s.check = .fault c ∧ step s = .next (s.faultEntry c).advance) ∨
    (s.accepts = true ∧ ∃ i u, s.check = .execute i ∧ exec i s = .next u ∧ step s = .next u.advance) := by
  cases hr : s.port.rst with
  | true => exact .inl ⟨rfl, step_reset hr⟩
  | false =>
    cases ha : s.accepts with
    | false => exact .inr (.inl ⟨rfl, rfl, step_waits hr ha⟩)
    | true =>
      cases hc : s.check with
      | fault c => exact .inr (.inr (.inl ⟨rfl, c, rfl, step_of_fault ha hc⟩))
      | execute i =>
        obtain ⟨u, hu, hs⟩ := step_of_execute ha hc
        exact .inr (.inr (.inr ⟨rfl, i, u, rfl, hu, hs⟩))

/-- Settles O8: each of the four ways a step goes has a next state. -/
theorem everyStepIsDefined : Obligations.EveryStepIsDefined := by
  unfold Obligations.EveryStepIsDefined
  intro s
  rcases step_cases s with ⟨-, h⟩ | ⟨-, -, h⟩ | ⟨-, c, -, h⟩ | ⟨-, i, u, -, -, h⟩ <;> exact ⟨_, h⟩

/-- Settles O6: the step runs the command, every command has a next state, and the host's move is read off its two
cases. -/
theorem stepRunsTheDecodedCommand : Obligations.StepRunsTheDecodedCommand := by
  unfold Obligations.StepRunsTheDecodedCommand
  refine ⟨fun s i hr hv hb he hd => ?_, fun t => ⟨_, _, _, t.advance_frame⟩, fun t p rest h => ?_, fun t h => ?_⟩
  · obtain ⟨t, ht⟩ := exec_next i s
    exact ⟨t, ht, by rw [step_runs hr (accepts_of hr hv hb he) hd, ht]; rfl⟩
  · simp [t.advance_cons h]
  · simp [t.advance_nil h, HostPort.idle]

theorem decode_of_decodeTableWord {nbits w : Nat} {i : Instr} (h : decodeTableWord nbits w = some i) :
    decode (BitVec.ofNat 16 (w % 2 ^ nbits)) = .ok i := by
  unfold decodeTableWord at h
  split at h
  · next hd => cases h; exact hd
  · cases h

/-- Settles O7: the word is presented without reset to a ready core, which accepts it. -/
theorem presentedWordIsRunNext : Obligations.PresentedWordIsRunNext := by
  unfold Obligations.PresentedWordIsRunNext
  intro s nbits w i hb he h
  exact ⟨step_runs rfl (accepts_of rfl rfl hb he) (decode_of_decodeTableWord h), _, rfl, rfl⟩

/-- A host that presents nothing, and a core that is busy or locked, accept nothing (R30, R257). -/
theorem accepts_eq_false {s : State} (h : s.port.cmdValid = false ∨ s.busy = true ∨ s.err = true) :
    s.accepts = false := by
  rcases h with h | h | h <;> simp [State.accepts, State.cmdReady, h]

/-- Settles O9: the core waits, and the host's move leaves every register and every byte of the store alone. -/
theorem nothingAcceptedNothingChanges : Obligations.NothingAcceptedNothingChanges := by
  unfold Obligations.NothingAcceptedNothingChanges
  intro s hr h
  exact ⟨s.advance, step_waits hr (accepts_eq_false h), by simp⟩

/-- Settles O16: in each of the four ways a step goes, what becomes of `KV`, `ERR` and `ECAUSE`. -/
theorem flagsChangeOnlyAsStated : Obligations.FlagsChangeOnlyAsStated := by
  unfold Obligations.FlagsChangeOnlyAsStated
  intro s t h
  rcases step_cases s with ⟨hr, hs⟩ | ⟨-, -, hs⟩ | ⟨ha, c, hc, hs⟩ | ⟨ha, i, u, hc, hu, hs⟩ <;>
    rw [h] at hs <;> cases hs
  case inl => simp [hr]
  case inr.inl => simp +contextual
  case inr.inr.inl =>
    obtain ⟨-, -, -, he⟩ := s.accepts_iff.1 ha
    simp +contextual [ha, hc, he]
  case inr.inr.inr =>
    obtain ⟨hd, hf⟩ := check_eq_execute_iff.1 hc
    rcases exec_of_noFault hf hu with ⟨src, m, rfl, rfl⟩ | ⟨v, rfl⟩
    · simp +contextual [ha, hd]
    · simp +contextual

/-! ### The output ports -/

/-- Settles O11: the values are those written in the definition of the reset state. -/
theorem stateAfterReset : Obligations.StateAfterReset := by
  unfold Obligations.StateAfterReset
  exact ⟨rfl, rfl, rfl, rfl, rfl, rfl, rfl, rfl, rfl, rfl⟩

/-- Settles O17: each field of the status view is read off its place in the concatenation. -/
theorem statusAndOutputPorts : Obligations.StatusAndOutputPorts := by
  unfold Obligations.StatusAndOutputPorts
  intro s
  refine ⟨?_, ?_, ?_, ?_, ?_, ?_, fun hb => ?_⟩
  · simp only [State.status, BitVec.getLsbD_append]; simp
  · simp only [State.status, BitVec.getLsbD_append]; simp
  · simp only [State.status, BitVec.getLsbD_append]; simp
  · ext j hj; simp [State.status]; grind
  · ext j hj; simp [State.status]; grind
  · simp [State.cmdReady]
  · simp [State.dout, hb]

end Sys2Proof.Proofs
end

section
/-! PROOFS. What KEYEXP leaves in the round-key store (spec/43_key_schedule.md R174, R176; spec/45_cipher_sequencer.md R228): the
schedule of its operand, with every byte defined. -/

namespace Sys2Proof.Proofs

open Sys2Proof.Machine

/-! ### Which words are listed -/

/-- The bytes of the first `n` words of the store are all listed. -/
def WordsListed (n : Nat) (s : State) : Prop := ∀ a, a < 4 * n → (Memory.read s.rk a).isSome = true

theorem full_iff_wordsListed (s : State) : s.rk.full = true ↔ WordsListed 44 s := by
  simp [Memory.full, WordsListed, rkBytes]

/-- Writing the next word lists one word more. -/
theorem WordsListed.writeRkWord {i : Nat} {s : State} (h : WordsListed i s) (v : Word) :
    WordsListed (i + 1) (s.writeRkWord i v) := by
  intro a ha
  rw [State.writeRkWord_rk, Memory.read_writeBytes]
  split
  · rfl
  · next hn => exact h a (by simp only [List.length_cons, List.length_nil] at hn; omega)

theorem wordsListed_loadKey (s : State) (k : Block) : WordsListed 4 (s.loadKey k) := by
  have h : WordsListed 0 s := fun a ha => absurd ha (by omega)
  exact (((h.writeRkWord _).writeRkWord _).writeRkWord _).writeRkWord _

/-- Round `r` of KEYEXP lists the four words of round key `r`. -/
theorem WordsListed.keyexpRound {s : State} (h : WordsListed (4 * s.rnd.toNat) s) :
    WordsListed (4 * s.rnd.toNat + 4) (keyexpRound s) :=
  (((h.writeRkWord _).writeRkWord _).writeRkWord _).writeRkWord _

/-! ### The schedule -/

/-- The store holds the round keys 0 to `n` of the key `k`, every byte of them listed. -/
structure Expanded (k : Block) (n : Nat) (s : State) : Prop where
  listed : WordsListed (4 * n + 4) s
  keys : ∀ r, r ≤ n → s.rkey r = expand k r

theorem expanded_loadKey (s : State) (k : Block) : Expanded k 0 (s.loadKey k) where
  listed := wordsListed_loadKey s k
  keys r hr := by
    obtain rfl : r = 0 := by omega
    rw [State.rkey_eq_ofCols]
    simp [State.loadKey, State.rkWord_writeRkWord, expand]

/-- A round of KEYEXP adds the next round key. -/
theorem Expanded.keyexpRound {k : Block} {n : Nat} {s : State} (h : Expanded k n s) (hr : s.rnd.toNat = n + 1) :
    Expanded k (n + 1) (keyexpRound s) where
  listed := by
    have hl : WordsListed (4 * s.rnd.toNat) s := by rw [hr]; exact h.listed
    rw [← hr]; exact hl.keyexpRound
  keys r hle := by
    rw [keyexpRound_rkey s (n + 1) hr (by omega)]
    split
    · next he => rw [he, Nat.add_sub_cancel, h.keys n (Nat.le_refl n), expand]
    · exact h.keys r (by omega)

theorem keyexpOrder_take_succ : ∀ n, n < 10 →
    keyexpOrder.take (n + 1) = keyexpOrder.take n ++ [BitVec.ofNat 4 (n + 1)] := by decide

/-- After the first `n` rounds of KEYEXP the store holds the round keys 0 to `n`. -/
theorem expanded_runRounds (s : State) (k : Block) {n : Nat} (hn : n ≤ 10) :
    Expanded k n (runRounds keyexpRound (keyexpOrder.take n) (s.loadKey k)) := by
  induction n with
  | zero => exact expanded_loadKey s k
  | succ n ih =>
    have h := ih (by omega)
    rw [keyexpOrder_take_succ n (by omega), runRounds_append, runRounds_cons, runRounds_nil]
    exact Expanded.keyexpRound ⟨h.listed, h.keys⟩
      (by rw [BitVec.toNat_ofNat]; exact Nat.mod_eq_of_lt (by omega))

/-- The loop of KEYEXP keeps the canonical form of the store. -/
theorem runRounds_keyexp_wf {s : State} (h : s.rk.wf = true) :
    (runRounds keyexpRound keyexpOrder s).rk.wf = true :=
  runRounds_keeps (P := fun u => u.rk.wf = true)
    (fun r hr _ hu => keyexpRound_wf ((by decide : ∀ r ∈ keyexpOrder, r.toNat ≤ 10) r hr) hu) h

theorem exec_keyexp (src : Src) (s : State) :
    exec (.keyexp src) s = .next
      { (runRounds keyexpRound keyexpOrder (s.begin.loadKey (s.operand src))).complete with kv := true } := rfl

/-- KEYEXP completes in every state: the store holds the schedule of the operand, every byte of it listed, `KV` is set, and
a store in canonical form stays so. -/
theorem execKeyexp_expands (src : Src) (s : State) :
    ∃ t, exec (.keyexp src) s = .next t ∧ Expanded (s.operand src) 10 t ∧
      t = { s with rk := t.rk, kv := true, rnd := 0#4, busy := false } ∧ (s.rk.wf = true → t.rk.wf = true) := by
  obtain ⟨m, hm⟩ : ∃ m, exec (.keyexp src) s = .next { s with rk := m, kv := true, rnd := 0#4, busy := false } :=
    execKeyexp_next src s
  have hx := exec_keyexp src s
  have he : Expanded (s.operand src) 10 (runRounds keyexpRound keyexpOrder (s.begin.loadKey (s.operand src))) :=
    expanded_runRounds s.begin (s.operand src) (Nat.le_refl 10)
  have hw := fun h : s.rk.wf = true => runRounds_keyexp_wf (s.begin.loadKey_wf (s.operand src) h)
  generalize runRounds keyexpRound keyexpOrder (s.begin.loadKey (s.operand src)) = u at hx he hw
  refine ⟨_, hx, ⟨he.listed, he.keys⟩, ?_, hw⟩
  rw [Host.Outcome.next.inj (hx.symm.trans hm)]

end Sys2Proof.Proofs
end

section
/-! PROOFS. The invariant of the core (spec/10_state.md R23, R24, R26, R27; spec/43_key_schedule.md R178): every update of the state
keeps it, so every step does. -/

namespace Sys2Proof.Proofs

open Sys2Proof.Machine

/-! ### Updates of the state -/

/-- The host's next move keeps the invariant: it touches no register. -/
theorem inv_advance {s : State} (h : Inv s) : Inv s.advance where
  storeWf := by simpa using h.storeWf
  notBusy := by simpa using h.notBusy
  roundZero := by simpa using h.roundZero
  causeIffErr := by simpa using h.causeIffErr
  keyedStore hk := by
    rw [State.rkey_congr s.advance_rk s.advance_rkEra, s.advance_rk]
    exact h.keyedStore (by simpa using hk)

theorem inv_applyReset (s : State) : Inv s.applyReset :=
  ⟨rfl, rfl, rfl, ⟨fun _ => rfl, fun _ => rfl⟩, fun hk => by cases hk⟩

theorem code_ne_zero (c : Cause) : c.code ≠ 0#2 := by cases c <;> decide

/-- Fault entry keeps the invariant: no cause has the code 0 (R250). -/
theorem inv_faultEntry {s : State} (c : Cause) (h : Inv s) : Inv (s.faultEntry c) where
  storeWf := h.storeWf
  notBusy := h.notBusy
  roundZero := h.roundZero
  causeIffErr := by simp [code_ne_zero]
  keyedStore := h.keyedStore

/-! ### Commands

A command runs between acceptance and completion, where `BUSY` may be 1, so the invariant is asked of the state with
`BUSY` cleared. -/

theorem inv_finish {s : State} (v : Block) (h : Inv { s with busy := false }) : Inv (s.finish v) where
  storeWf := h.storeWf
  notBusy := rfl
  roundZero := rfl
  causeIffErr := h.causeIffErr
  keyedStore := h.keyedStore

/-- KEYEXP keeps the invariant: the round keys it leaves are the schedule of round key 0, the key itself. -/
theorem inv_keyexp {s t : State} {src : Src} (h : Inv { s with busy := false })
    (ht : exec (.keyexp src) s = .next t) : Inv t := by
  obtain ⟨u, hu, hx, hframe, hwf⟩ := execKeyexp_expands src s
  obtain rfl : t = u := by rw [ht] at hu; injection hu
  have h0 : t.rkey 0 = s.operand src := hx.keys 0 (by omega)
  refine ⟨hwf h.storeWf, ?_, ?_, ?_, fun _ => ⟨(full_iff_wordsListed t).2 hx.listed, ?_⟩⟩
  · rw [hframe]
  · rw [hframe]
  · rw [hframe]; exact h.causeIffErr
  · rw [h0]; exact hx.keys

/-- A command that has no fault keeps the invariant. -/
theorem inv_exec {i : Instr} {s t : State} (h : Inv { s with busy := false }) (hf : faultOf i s = none)
    (ht : exec i s = .next t) : Inv t := by
  rcases exec_of_noFault hf ht with ⟨src, m, rfl, -⟩ | ⟨v, rfl⟩
  · exact inv_keyexp h ht
  · exact inv_finish v h

/-- Between commands `BUSY` is 0, so clearing it changes nothing. -/
theorem inv_clearBusy {s : State} (h : Inv s) : Inv { s with busy := false } :=
  ⟨h.storeWf, rfl, h.roundZero, h.causeIffErr, h.keyedStore⟩

/-! ### The step -/

/-- Settles O51: each of the four ways a step goes keeps the invariant. -/
theorem stepKeepsTheInvariant : Obligations.StepKeepsTheInvariant := by
  unfold Obligations.StepKeepsTheInvariant
  intro s t h ht
  rcases step_cases s with ⟨-, hs⟩ | ⟨-, -, hs⟩ | ⟨-, c, -, hs⟩ | ⟨-, i, u, hc, hu, hs⟩ <;>
    rw [ht] at hs <;> cases hs
  case inl => exact inv_advance (inv_applyReset s)
  case inr.inl => exact inv_advance h
  case inr.inr.inl => exact inv_advance (inv_faultEntry c h)
  case inr.inr.inr => exact inv_advance (inv_exec (inv_clearBusy h) (check_eq_execute_iff.1 hc).2 hu)

/-- Settles O52: a reset state has an empty store, no key and no fault. -/
theorem resetHasTheInvariant : Obligations.ResetHasTheInvariant := by
  unfold Obligations.ResetHasTheInvariant
  exact ⟨rfl, rfl, rfl, ⟨fun _ => rfl, fun _ => rfl⟩, fun hk => by cases hk⟩

end Sys2Proof.Proofs
end

section
/-! PROOFS. The clock-level view (spec/10_state.md R30, R31; spec/70_reset_and_hazards.md R280, R284, R288): what one edge does,
what the edges of a command in flight leave alone, and what the completing edge commits. -/

namespace Sys2Proof.Proofs

open Sys2Proof.Machine

/-! ### One edge -/

theorem tick_reset {c : Clocked} (hr : c.core.port.rst = true) : c.tick = .next ⟨c.core.applyReset.advance, none⟩ := by
  simp [Clocked.tick, hr]

theorem tick_inFlight {s : State} {f : Flight} {n : Nat} (hr : s.port.rst = false) (hl : f.left = n + 1) :
    Clocked.tick ⟨s, some f⟩ = .next ⟨s.advance, some { f with left := n }⟩ := by
  simp [Clocked.tick, hr, hl]

theorem tick_commits {s t : State} {f : Flight} (hr : s.port.rst = false) (hl : f.left = 0)
    (ht : exec f.instr { s with port := f.sampled } = .next t) :
    Clocked.tick ⟨s, some f⟩ = .next ⟨State.advance { t with port := s.port }, none⟩ := by
  simp [Clocked.tick, hr, hl, Flight.commit, ht]

theorem tick_waits {s : State} (hr : s.port.rst = false) (ha : s.accepts = false) :
    Clocked.tick ⟨s, none⟩ = .next ⟨s.advance, none⟩ := by
  simp [Clocked.tick, hr, ha]

theorem tick_faults {s : State} {cause : Cause} (ha : s.accepts = true) (hc : s.check = .fault cause) :
    Clocked.tick ⟨s, none⟩ = .next ⟨(s.faultEntry cause).advance, none⟩ := by
  simp [Clocked.tick, rst_of_accepts ha, ha, hc]

theorem tick_accepts {s : State} {i : Instr} (ha : s.accepts = true) (hc : s.check = .execute i) :
    Clocked.tick ⟨s, none⟩ = .next ⟨s.begin.advance, some ⟨i, s.port, s.latency⟩⟩ := by
  simp [Clocked.tick, rst_of_accepts ha, ha, hc]

/-- With no command in flight an edge either is a step or accepts a command that passes the checks. -/
theorem tick_idle_cases (s : State) :
    (∃ t, step s = .next t ∧ Clocked.tick ⟨s, none⟩ = .next ⟨t, none⟩) ∨
    (s.accepts = true ∧ ∃ i, s.check = .execute i ∧
      Clocked.tick ⟨s, none⟩ = .next ⟨s.begin.advance, some ⟨i, s.port, s.latency⟩⟩) := by
  rcases step_cases s with ⟨hr, hs⟩ | ⟨hr, ha, hs⟩ | ⟨ha, c, hc, hs⟩ | ⟨ha, i, -, hc, -, -⟩
  · exact .inl ⟨_, hs, tick_reset hr⟩
  · exact .inl ⟨_, hs, tick_waits hr ha⟩
  · exact .inl ⟨_, hs, tick_faults ha hc⟩
  · exact .inr ⟨ha, i, hc, tick_accepts ha hc⟩

/-- Settles O56: the edge of the other case, one that accepts a command that passes the checks, is excluded. -/
theorem otherEdgesAreSteps : Obligations.OtherEdgesAreSteps := by
  unfold Obligations.OtherEdgesAreSteps
  rintro ⟨s, f⟩ (rfl : f = none) h
  rcases tick_idle_cases s with hs | ⟨ha, i, hc, -⟩
  · exact hs
  · simp [rst_of_accepts ha, ha, hc] at h

/-! ### The edges of a command in flight -/

/-- The host's move does not depend on `BUSY`. -/
theorem advance_busy (s : State) (b : Bool) : { s.advance with busy := b } = State.advance { s with busy := b } := by
  simp only [State.advance]; split <;> rfl

theorem begin_advance (s : State) : s.begin.advance = s.advance.begin := (advance_busy s true).symm

theorem begin_advanceBy (s : State) (n : Nat) : s.begin.advanceBy n = (s.advanceBy n).begin := by
  induction n generalizing s with
  | zero => rfl
  | succ n ih => rw [State.advanceBy, begin_advance, ih, State.advanceBy]

theorem advanceBy_succ (s : State) (n : Nat) : s.advanceBy (n + 1) = (s.advanceBy n).advance := by
  induction n generalizing s with
  | zero => rfl
  | succ n ih => rw [State.advanceBy, ih, ← State.advanceBy]

/-- Any number of the host's moves changes its ports and the count of edges, nothing else. -/
theorem advanceBy_frame (s : State) (n : Nat) : ∃ p h e, s.advanceBy n = { s with port := p, host := h, edge := e } := by
  induction n with
  | zero => exact ⟨_, _, _, rfl⟩
  | succ n ih =>
    obtain ⟨p, h, e, he⟩ := ih
    rw [advanceBy_succ, State.advance_frame, he]
    exact ⟨_, _, _, rfl⟩

/-- A host that asserts no reset now and has none ahead asserts none after any number of its moves. -/
theorem advanceBy_noReset {s : State} (hr : s.port.rst = false) (hh : ∀ p ∈ s.host, p.rst = false) (n : Nat) :
    (s.advanceBy n).port.rst = false := by
  induction n generalizing s with
  | zero => exact hr
  | succ n ih =>
    obtain ⟨hr', hh'⟩ := s.advance_noReset hh
    exact ih hr' hh'

theorem run_succ {c d : Clocked} (h : c.tick = .next d) (n : Nat) : Clocked.run (n + 1) c = Clocked.run n d := by
  rw [Clocked.run, h]

/-- An edge more at the end of a run. -/
theorem run_append_tick {c d : Clocked} {n : Nat} (h : Clocked.run n c = .next d) : Clocked.run (n + 1) c = d.tick := by
  induction n generalizing c with
  | zero => cases h; rw [Clocked.run]; cases d.tick <;> rfl
  | succ n ih =>
    rw [Clocked.run] at h ⊢
    cases ht : c.tick with
    | next e => rw [ht] at h; exact ih h
    | fault r => rw [ht] at h; cases h
    | refused r => rw [ht] at h; cases h

/-- While a command is in flight and no reset comes, the edges before the completing one only count down. -/
theorem run_inFlight {s : State} {f : Flight} {n : Nat} (hr : s.port.rst = false) (hh : ∀ p ∈ s.host, p.rst = false)
    (hn : n ≤ f.left) :
    Clocked.run n ⟨s, some f⟩ = .next ⟨s.advanceBy n, some { f with left := f.left - n }⟩ := by
  induction n with
  | zero => rfl
  | succ n ih =>
    rw [run_append_tick (ih (by omega)), tick_inFlight (n := f.left - (n + 1)) (advanceBy_noReset hr hh n)
      (by show f.left - n = _; omega), advanceBy_succ]

/-- From the accepting edge to the edge before the completing one: `BUSY` is 1 and the command is in flight. -/
theorem run_accepted {s : State} {i : Instr} {n : Nat} (ha : s.accepts = true) (hc : s.check = .execute i)
    (hh : ∀ p ∈ s.host, p.rst = false) (hn : n ≤ s.latency) :
    Clocked.run (n + 1) ⟨s, none⟩ =
      .next ⟨(s.advanceBy (n + 1)).begin, some ⟨i, s.port, s.latency - n⟩⟩ := by
  obtain ⟨hr', hh'⟩ := s.begin.advance_noReset hh
  rw [run_succ (tick_accepts ha hc), run_inFlight hr' hh' hn, begin_advance, begin_advanceBy, State.advanceBy]

/-- Settles O54: the edges in flight only count down. -/
theorem nothingChangesWhileBusy : Obligations.NothingChangesWhileBusy := by
  unfold Obligations.NothingChangesWhileBusy
  rintro ⟨s, f⟩ i n (rfl : f = none) - ha hc hh hn
  exact ⟨_, run_accepted ha hc hh hn, rfl, rfl, rfl⟩

/-! ### The completing edge -/

/-- The state with `BUSY`, what the host does next and the count of edges replaced: what differs at the completing edge from
the state of acceptance, once the sampled ports are put back. -/
def elapsed (busy : Bool) (host : List HostPort) (edge : Nat) (s : State) : State :=
  { s with busy := busy, host := host, edge := edge }

section
variable (b : Bool) (h : List HostPort) (e : Nat) (s : State)

@[simp] theorem elapsed_rnd : (elapsed b h e s).rnd = s.rnd := rfl
@[simp] theorem elapsed_rkWord : (elapsed b h e s).rkWord = s.rkWord := rfl
@[simp] theorem elapsed_writeRkWord (i : Nat) (v : Word) :
    (elapsed b h e s).writeRkWord i v = elapsed b h e (s.writeRkWord i v) := by unfold State.writeRkWord; rfl

theorem loadKey_elapsed (k : Block) : (elapsed b h e s).loadKey k = elapsed b h e (s.loadKey k) := by
  simp only [State.loadKey, elapsed_writeRkWord]

theorem keyexpRound_elapsed : keyexpRound (elapsed b h e s) = elapsed b h e (keyexpRound s) := by
  simp only [keyexpRound, elapsed_rnd, elapsed_rkWord, elapsed_writeRkWord]

theorem encRound_elapsed : encRound (elapsed b h e s) = elapsed b h e (encRound s) := rfl

theorem decRound_elapsed : decRound (elapsed b h e s) = elapsed b h e (decRound s) := rfl

variable {work : State → State} (hw : ∀ u, work (elapsed true h e u) = elapsed true h e (work u))
include hw

/-- What every round leaves unread and alone, a whole run of rounds does. -/
theorem runRounds_elapsed (l : List (BitVec 4)) :
    runRounds work l (elapsed true h e s) = elapsed true h e (runRounds work l s) := by
  induction l generalizing s with
  | nil => rfl
  | cons r l ih => rw [runRounds_cons, runRounds_cons, ← ih, ← hw]; rfl

/-- The rounds of ENC and DEC, from the start of the command to its completion. -/
theorem complete_runRounds_elapsed (l : List (BitVec 4)) (src : Src) :
    (runRounds work l { (elapsed b h e s).begin with acc := (elapsed b h e s).operand src }).complete =
      elapsed false h e (runRounds work l { s.begin with acc := s.operand src }).complete :=
  congrArg State.complete (runRounds_elapsed h e { s.begin with acc := s.operand src } hw l)

end

theorem checked_elapsed {fault : Option Cause} {work : State → State} {b : Bool} {h : List HostPort} {e : Nat}
    {s t : State} (hw : work (elapsed b h e s) = elapsed false h e (work s)) (hf : fault = none)
    (ht : checked fault s work = .next t) :
    checked fault (elapsed b h e s) work = .next (elapsed false h e t) := by
  subst hf
  rw [checked_none] at ht ⊢
  rw [hw, Host.Outcome.next.inj ht]

/-- A command that has no fault reads neither `BUSY` nor what the host does next nor the count of edges, and writes of them
only `BUSY <- 0`. -/
theorem exec_elapsed {i : Instr} {s t : State} (hf : faultOf i s = none) (ht : exec i s = .next t) (b : Bool)
    (h : List HostPort) (e : Nat) : exec i (elapsed b h e s) = .next (elapsed false h e t) := by
  cases i with
  | keyexp src =>
    have hw := runRounds_elapsed h e (s.begin.loadKey (s.operand src)) (keyexpRound_elapsed true h e) keyexpOrder
    rw [← loadKey_elapsed] at hw
    rw [exec_keyexp] at ht
    rw [exec_keyexp, ← Host.Outcome.next.inj ht]
    exact congrArg (fun u : State => Host.Outcome.next { u.complete with kv := true }) hw
  | rdrk r =>
    exact checked_elapsed (fault := indexKeyFault r s) (work := fun s => s.finish (s.rkey r)) rfl hf ht
  | ark src r =>
    exact checked_elapsed (fault := indexKeyFault r s)
      (work := fun s => s.finish (addRoundKey (s.operand src) (s.rkey r))) rfl hf ht
  | enc src =>
    exact checked_elapsed (fault := keyFault s)
      (work := fun s => (runRounds encRound encOrder { s.begin with acc := s.operand src }).complete)
      (complete_runRounds_elapsed b h e s (encRound_elapsed true h e) encOrder src) hf ht
  | dec src =>
    exact checked_elapsed (fault := keyFault s)
      (work := fun s => (runRounds decRound decOrder { s.begin with acc := s.operand src }).complete)
      (complete_runRounds_elapsed b h e s (decRound_elapsed true h e) decOrder src) hf ht
  | _ => cases ht; rfl

/-- The registers of R20 of `t`, everything else of `s`. -/
def withRegisters (s t : State) : State :=
  { s with acc := t.acc, rk := t.rk, kv := t.kv, busy := t.busy, err := t.err, ecause := t.ecause, rnd := t.rnd }

/-- The host's move does not depend on the registers. -/
theorem withRegisters_advance (s t : State) : (withRegisters s t).advance = withRegisters s.advance t := by
  cases hh : s.host with
  | nil => rw [s.advance_nil hh, (withRegisters s t).advance_nil hh]; rfl
  | cons p rest => rw [s.advance_cons hh, (withRegisters s t).advance_cons hh]; rfl

/-- A completed command has `BUSY = 0` and has changed registers only. -/
theorem elapsed_of_exec {i : Instr} {s t : State} (hf : faultOf i s = none) (ht : exec i s = .next t) (p : HostPort)
    (h : List HostPort) (e : Nat) :
    { elapsed false h e t with port := p } = withRegisters { s with port := p, host := h, edge := e } t := by
  rcases exec_of_noFault hf ht with ⟨src, m, -, rfl⟩ | ⟨v, rfl⟩ <;> rfl

/-- The last of the edges of an accepted command commits what `exec` gives in the state of acceptance. -/
theorem run_committed {s t : State} {i : Instr} (ha : s.accepts = true) (hc : s.check = .execute i)
    (hh : ∀ p ∈ s.host, p.rst = false) (ht : exec i s = .next t) :
    Clocked.run (s.latency + 2) ⟨s, none⟩ = .next ⟨withRegisters (s.advanceBy (s.latency + 2)) t, none⟩ := by
  have hf := (check_eq_execute_iff.1 hc).2
  have hr := advanceBy_noReset (rst_of_accepts ha) hh (s.latency + 1)
  obtain ⟨p, h, e, he⟩ := advanceBy_frame s (s.latency + 1)
  rw [run_append_tick (run_accepted ha hc hh (Nat.le_refl _)), advanceBy_succ s (s.latency + 1), ← withRegisters_advance]
  rw [he] at hr ⊢
  rw [← elapsed_of_exec hf ht]
  exact tick_commits hr (Nat.sub_self _) (exec_elapsed hf ht true h e)

/-- Settles O55: the step runs the same `exec` in the state of acceptance as the completing edge commits. -/
theorem clockedCommandCommitsTheStep : Obligations.ClockedCommandCommitsTheStep := by
  unfold Obligations.ClockedCommandCommitsTheStep
  rintro ⟨s, f⟩ i (rfl : f = none) - ha hc hh
  obtain ⟨t, ht, hs⟩ := step_of_execute ha hc
  exact ⟨t, _, ht, hs, run_committed ha hc hh ht, rfl, rfl⟩

/-! ### The invariant -/

theorem clockedInv_idle_iff {s : State} : Clocked.Inv ⟨s, none⟩ ↔ Inv s := by
  refine ⟨fun h => ?_, fun h => ⟨inv_clearBusy h, h.notBusy, fun f hf => by cases hf⟩⟩
  obtain ⟨⟨hw, -, hz, hc, hk⟩, hb, -⟩ := h
  exact ⟨hw, hb, hz, hc, hk⟩

/-- Accepting a command that passes the checks puts it in flight. -/
theorem clockedInv_accepted {s : State} {i : Instr} (h : Inv s) (ha : s.accepts = true) (hc : s.check = .execute i)
    (n : Nat) : Clocked.Inv ⟨s.begin.advance, some ⟨i, s.port, n⟩⟩ where
  coreInv := by rw [advance_busy]; exact inv_advance (s := { s with busy := false }) (inv_clearBusy h)
  busyIff := by simp
  flightChecked f hf := by
    cases hf
    obtain ⟨hd, hn⟩ := check_eq_execute_iff.1 hc
    obtain ⟨-, -, -, he⟩ := s.accepts_iff.1 ha
    exact ⟨by simpa using he, hd, by rw [← hn]; exact faultOf_congr (by simp) i⟩

/-- An edge that only counts down leaves the checks of the command in flight as they were: `KV` and `ERR` do not change. -/
theorem clockedInv_inFlight {s : State} {f : Flight} (h : Clocked.Inv ⟨s, some f⟩) (n : Nat) :
    Clocked.Inv ⟨s.advance, some { f with left := n }⟩ where
  coreInv := by rw [advance_busy]; exact inv_advance h.coreInv
  busyIff := by simpa using h.busyIff
  flightChecked g hg := by
    cases hg
    obtain ⟨he, hd, hn⟩ := h.flightChecked f rfl
    exact ⟨by simpa using he, hd, by rw [← hn]; exact faultOf_congr (by simp) f.instr⟩

/-- The ports carry no part of the invariant. -/
theorem inv_port {s : State} (p : HostPort) (h : Inv s) : Inv { s with port := p } :=
  ⟨h.storeWf, h.notBusy, h.roundZero, h.causeIffErr, h.keyedStore⟩

/-- What the completing edge commits has the invariant, since the command passed its checks. -/
theorem clockedInv_committed {s t : State} {f : Flight} (h : Clocked.Inv ⟨s, some f⟩)
    (ht : exec f.instr { s with port := f.sampled } = .next t) :
    Clocked.Inv ⟨State.advance { t with port := s.port }, none⟩ := by
  obtain ⟨-, -, hn⟩ := h.flightChecked f rfl
  have hf : faultOf f.instr { s with port := f.sampled } = none := by rw [← hn]; exact faultOf_congr rfl f.instr
  exact clockedInv_idle_iff.2 (inv_advance (inv_port s.port (inv_exec (inv_port f.sampled h.coreInv) hf ht)))

/-- Settles O58: by what the edge does: a reset, an edge with no command in flight, one that counts down, one that commits. -/
theorem clockKeepsTheInvariant : Obligations.ClockKeepsTheInvariant := by
  unfold Obligations.ClockKeepsTheInvariant
  rintro ⟨s, f⟩ d h hd
  cases hr : s.port.rst with
  | true =>
    rw [tick_reset hr] at hd
    cases hd
    exact clockedInv_idle_iff.2 (inv_advance (inv_applyReset s))
  | false =>
    match f with
    | none =>
      have hi := clockedInv_idle_iff.1 h
      rcases tick_idle_cases s with ⟨t, hs, ht⟩ | ⟨ha, i, hc, ht⟩ <;> rw [ht] at hd <;> cases hd
      · exact clockedInv_idle_iff.2 (stepKeepsTheInvariant s t hi hs)
      · exact clockedInv_accepted hi ha hc s.latency
    | some f =>
      cases hl : f.left with
      | succ n =>
        rw [tick_inFlight hr hl] at hd
        cases hd
        exact clockedInv_inFlight h n
      | zero =>
        obtain ⟨t, ht⟩ := exec_next f.instr { s with port := f.sampled }
        rw [tick_commits hr hl ht] at hd
        cases hd
        exact clockedInv_committed h ht

end Sys2Proof.Proofs
end

section
/-! PROOFS. The round-key store (spec/20_memory.md R51 to R54, R58): where the bytes of a word and of a round key lie, what a word
write changes and leaves alone, and which command writes at all. -/

namespace Sys2Proof.Proofs

open Sys2Proof.Machine

/-! ### The bytes of words and round keys (R53, R54) -/

/-- Byte `j` of word `i` lies at address `4i + j`: the most significant byte at the lowest address. -/
theorem wordByte_rkWord (s : State) (i : Nat) (j : Fin 4) : wordByte (s.rkWord i) j = s.memByte (4 * i + j.val) := by
  match j with
  | 0 => exact wordByte_mkWord_0 ..
  | 1 => exact wordByte_mkWord_1 ..
  | 2 => exact wordByte_mkWord_2 ..
  | 3 => exact wordByte_mkWord_3 ..

/-- Byte `i` of round key `r` lies at address `16r + i`. -/
theorem blockByte_rkey (s : State) (r : Nat) (i : Fin 16) : blockByte (s.rkey r) i = s.memByte (16 * r + i.val) :=
  blockByte_mkBlock ..

/-! ### What a word write leaves alone -/

/-- A byte outside the four bytes of the word written reads as before. -/
theorem memByte_writeRkWord_outside (s : State) {i a : Nat} (v : Word) (h : a < 4 * i ∨ 4 * i + 4 ≤ a) :
    (s.writeRkWord i v).memByte a = s.memByte a := by
  rw [State.memByte_writeRkWord, if_neg (by omega), if_neg (by omega), if_neg (by omega), if_neg (by omega)]

/-! ### The statements -/

/-- Settles O21: each read after the write is a case of what the write does to a word or to a byte. -/
theorem storeReadAfterWrite : Obligations.StoreReadAfterWrite := by
  unfold Obligations.StoreReadAfterWrite
  intro s i v
  refine ⟨wordByte_rkWord s i, ?_, ?_, fun j hj => ?_, fun _ => memByte_writeRkWord_outside s v, s.writeRkWord_wf v⟩
  · rw [State.rkWord_writeRkWord, if_pos rfl]
  · rw [State.memByte_writeRkWord, if_pos rfl]; rfl
  · rw [State.rkWord_writeRkWord, if_neg hj]

/-- Settles O22: the address of a byte is its quotient and its remainder by 16 put together again. -/
theorem roundKeyIsFourWords : Obligations.RoundKeyIsFourWords := by
  unfold Obligations.RoundKeyIsFourWords
  refine fun s => ⟨s.rkey_eq_ofCols, fun a => ?_⟩
  have haddr : 16 * (a / 16) + a % 16 % 16 = a := by omega
  rw [blockByte_rkey, Fin.val_ofNat, haddr]

/-- Settles O23: fault entry keeps the store and so does a result put in `ACC`, and there is no third way but KEYEXP. -/
theorem onlyKeyexpWritesTheStore : Obligations.OnlyKeyexpWritesTheStore := by
  unfold Obligations.OnlyKeyexpWritesTheStore
  intro i s t ht hrk
  rcases exec_cases i s with ⟨c, -, he⟩ | ⟨-, hkeyexp, -⟩ | ⟨-, -, v, he⟩
  · rw [ht] at he; cases he
    exact absurd (s.faultEntry_rk c) hrk
  · exact hkeyexp
  · rw [ht] at he; cases he
    exact absurd (s.finish_rk v) hrk

end Sys2Proof.Proofs
end

section
/-! PROOFS. Decoding and encoding (spec/30_encoding.md R70 to R81): a word is its fields, a command is the fields of its word, and
the statements about the decoder, the encoder and the opcode table follow from these two. -/

namespace Sys2Proof.Proofs

/-! ### The fields of a word (R70 to R74) -/

section
variable (op : BitVec 8) (src : Src) (ridx : BitVec 4)

@[simp] theorem opField_packFields : opField (packFields op src.bit ridx) = op := by
  simp only [opField, packFields]; ext i hi; simp; grind

@[simp] theorem srcField_packFields : srcField (packFields op src.bit ridx) = src := by
  simp only [srcField, packFields, BitVec.getLsbD_append]; cases src <;> rfl

@[simp] theorem reservedField_packFields : reservedField (packFields op src.bit ridx) = 0#3 := by
  simp only [reservedField, packFields]; ext i hi; simp; grind

@[simp] theorem ridxField_packFields : ridxField (packFields op src.bit ridx) = ridx := by
  simp only [ridxField, packFields]; ext i hi; simp; grind

end

theorem srcField_eq_acc_iff (cw : CmdWord) : srcField cw = .acc ↔ cw.getLsbD 7 = true := by
  simp [srcField]

theorem bit_srcField (cw : CmdWord) : (srcField cw).bit = BitVec.ofBool (cw.getLsbD 7) := by
  unfold srcField; cases cw.getLsbD 7 <;> rfl

/-- A word is its four fields side by side (R71). -/
theorem append_fields (cw : CmdWord) :
    opField cw ++ (srcField cw).bit ++ reservedField cw ++ ridxField cw = cw := by
  rw [bit_srcField]
  simp only [opField, reservedField, ridxField]; ext i hi; simp; grind

/-- A word whose must-be-zero field is zero is put together from its OP, SRC and RIDX. -/
theorem packFields_fields {cw : CmdWord} (h : reservedField cw = 0#3) :
    packFields (opField cw) (srcField cw).bit (ridxField cw) = cw := by
  have hcw := append_fields cw
  rwa [h] at hcw

/-! ### The fields of a command (R71, R79) -/

/-- The OP, SRC and RIDX of a command that stands for a word: one case for each format, 0 in a field the format does not
have. -/
inductive HasFields : Instr → BitVec 8 → Src → BitVec 4 → Prop
  | entry {op : BitVec 8} {build : Src → Instr} (h : (op, build) ∈ formatD) (src : Src) :
    HasFields (build src) op src 0#4
  | ark (src : Src) (ridx : BitVec 4) : HasFields (.ark src ridx.toNat) 0x50#8 src ridx
  | rdrk (ridx : BitVec 4) : HasFields (.rdrk ridx.toNat) 0x41#8 .din ridx

/-- Every command is of format D or an ARK or an RDRK. -/
theorem instr_cases (i : Instr) :
    (∃ build src, build ∈ formatD.map Prod.snd ∧ i = build src) ∨ (∃ src r, i = .ark src r) ∨ ∃ r, i = .rdrk r := by
  cases i with
  | ark src r => exact .inr (.inl ⟨src, r, rfl⟩)
  | rdrk r => exact .inr (.inr ⟨r, rfl⟩)
  | _ src => exact .inl ⟨_, src, by simp [formatD], rfl⟩

/-- A round index that fits four bits is the value of a RIDX field (R73). -/
theorem exists_toNat_eq {r : Nat} (h : r < 16) : ∃ ridx : BitVec 4, ridx.toNat = r := ⟨.ofNatLT r h, rfl⟩

/-- A command that stands for a word has fields. -/
theorem exists_hasFields {i : Instr} (h : WellFormed i) : ∃ op src ridx, HasFields i op src ridx := by
  rcases instr_cases i with ⟨build, src, hb, rfl⟩ | ⟨src, r, rfl⟩ | ⟨r, rfl⟩
  · obtain ⟨⟨op, _⟩, hp, rfl⟩ := List.mem_map.1 hb
    exact ⟨op, src, _, .entry hp src⟩
  · obtain ⟨ridx, rfl⟩ := exists_toNat_eq (of_decide_eq_true h)
    exact ⟨_, src, _, .ark src ridx⟩
  · obtain ⟨ridx, rfl⟩ := exists_toNat_eq (of_decide_eq_true h)
    exact ⟨_, _, _, .rdrk ridx⟩

theorem wellFormed_of_formatD {op : BitVec 8} {build : Src → Instr} (h : (op, build) ∈ formatD) (src : Src) :
    WellFormed (build src) := by
  have hd : ∀ p ∈ formatD, WellFormed (p.2 .din) ∧ WellFormed (p.2 .acc) := by decide
  cases src
  · exact (hd _ h).1
  · exact (hd _ h).2

/-- The word of a format D command has the opcode of the command's entry in the list of opcodes. -/
theorem encode_formatD {op : BitVec 8} {build : Src → Instr} (h : (op, build) ∈ formatD) (src : Src) :
    encode (build src) = packFields op src.bit 0#4 := by
  have hd : ∀ p ∈ formatD, encode (p.2 .din) = packFields p.1 Src.din.bit 0#4 ∧
      encode (p.2 .acc) = packFields p.1 Src.acc.bit 0#4 := by decide
  cases src
  · exact (hd _ h).1
  · exact (hd _ h).2

theorem HasFields.wellFormed {i : Instr} {op : BitVec 8} {src : Src} {ridx : BitVec 4} (h : HasFields i op src ridx) :
    WellFormed i := by
  cases h with
  | entry hp => exact wellFormed_of_formatD hp src
  | ark => exact decide_eq_true ridx.isLt
  | rdrk => exact decide_eq_true ridx.isLt

/-- The word of a command is put together from the command's fields (R71). -/
theorem HasFields.encode_eq {i : Instr} {op : BitVec 8} {src : Src} {ridx : BitVec 4} (h : HasFields i op src ridx) :
    encode i = packFields op src.bit ridx := by
  cases h with
  | entry hp => exact encode_formatD hp src
  | ark => rw [encode, BitVec.ofNat_toNat, BitVec.setWidth_eq]
  | rdrk => rw [encode, BitVec.ofNat_toNat, BitVec.setWidth_eq]; rfl

/-! ### The decoder (R80) -/

/-- No opcode stands twice in the list of format D opcodes. -/
theorem lookup_formatD {op : BitVec 8} {build : Src → Instr} (h : (op, build) ∈ formatD) :
    formatD.lookup op = some build := by
  have hl : ∀ p ∈ formatD, formatD.lookup p.1 = some p.2 := by simp [formatD, List.lookup]
  exact hl _ h

theorem mem_of_lookup {α β : Type} [BEq α] [LawfulBEq α] {l : List (α × β)} {a : α} {b : β}
    (h : l.lookup a = some b) : (a, b) ∈ l := by
  obtain ⟨l₁, l₂, rfl, -⟩ := List.lookup_eq_some_iff.1 h
  exact List.mem_append_right l₁ (List.mem_cons_self ..)

/-- The decoder reads a command back from the command's fields. -/
theorem HasFields.decode_packFields {i : Instr} {op : BitVec 8} {src : Src} {ridx : BitVec 4}
    (h : HasFields i op src ridx) : decode (packFields op src.bit ridx) = .ok i := by
  cases h with
  | entry hp => simp [decode, lookup_formatD hp]
  | ark =>
    have hn : formatD.lookup 0x50#8 = none := rfl
    simp [decode, hn]
  | rdrk =>
    have hn : formatD.lookup 0x41#8 = none := rfl
    simp [decode, hn]

theorem decode_of_hasFields {cw : CmdWord} {i : Instr} (hz : reservedField cw = 0#3)
    (h : HasFields i (opField cw) (srcField cw) (ridxField cw)) : decode cw = .ok i := by
  rw [← h.decode_packFields, packFields_fields hz]

/-- A word that decodes has its must-be-zero field zero, and its other fields are those of the command it decodes to. -/
theorem hasFields_of_decode {cw : CmdWord} {i : Instr} (h : decode cw = .ok i) :
    reservedField cw = 0#3 ∧ HasFields i (opField cw) (srcField cw) (ridxField cw) := by
  unfold decode at h
  split at h
  next => cases h
  next hz =>
    refine ⟨not_not.1 hz, ?_⟩
    split at h
    next build hl =>
      split at h
      next => cases h
      next hx => cases h; rw [not_not.1 hx]; exact .entry (mem_of_lookup hl) _
    next =>
      split at h
      next ho => cases h; rw [ho]; exact .ark _ _
      next =>
        split at h
        next ho =>
          cases hs : srcField cw with
          | acc => rw [hs] at h; cases h
          | din => rw [hs] at h; cases h; rw [ho]; exact .rdrk _
        next => cases h

/-- Settles O2: the decoder reads the command back from its fields, and its word is put together from them. -/
theorem decodeAfterEncode : Obligations.DecodeAfterEncode := by
  unfold Obligations.DecodeAfterEncode
  intro i h
  obtain ⟨op, src, ridx, hf⟩ := exists_hasFields h
  rw [hf.encode_eq, hf.decode_packFields]

/-- Settles O3: the fields of the word are those of the command, so the word is put together from them. -/
theorem encodeAfterDecode : Obligations.EncodeAfterDecode := by
  unfold Obligations.EncodeAfterDecode
  intro cw i h
  obtain ⟨hz, hf⟩ := hasFields_of_decode h
  exact ⟨hf.wellFormed, by rw [hf.encode_eq, packFields_fields hz]⟩


/-! ### Illegal words (R78, R81) -/

theorem exists_decode_error {cw : CmdWord} (h : ∀ i, decode cw ≠ .ok i) : ∃ e, decode cw = .error e := by
  cases hd : decode cw with
  | error e => exact ⟨e, rfl⟩
  | ok i => exact absurd hd (h i)

section
variable {i : Instr} {op : BitVec 8} {src : Src} {ridx : BitVec 4} (h : HasFields i op src ridx)
include h

theorem HasFields.op_mem : op ∈ formatD.map Prod.fst ∨ op = 0x50#8 ∨ op = 0x41#8 := by
  cases h with
  | entry hp => exact .inl (List.mem_map_of_mem hp)
  | ark => exact .inr (.inl rfl)
  | rdrk => exact .inr (.inr rfl)

theorem HasFields.ridx_eq_zero (hop : op ∈ formatD.map Prod.fst) : ridx = 0#4 := by
  cases h with
  | entry => rfl
  | ark => exact absurd hop (by decide)
  | rdrk => exact absurd hop (by decide)

theorem HasFields.src_eq_din (hop : op = 0x41#8) : src = .din := by
  cases h with
  | entry hp =>
    have hm : op ∈ formatD.map Prod.fst := List.mem_map_of_mem hp
    rw [hop] at hm
    exact absurd hm (by decide)
  | ark => exact absurd hop (by decide)
  | rdrk => rfl

end

/-- Settles O5: the fields of a command have none of these values. -/
theorem reservedEncodingsAreIllegal : Obligations.ReservedEncodingsAreIllegal := by
  unfold Obligations.ReservedEncodingsAreIllegal
  refine ⟨fun cw hz => ?_, fun cw hop hx => ?_, fun cw hop hb => ?_, fun cw hd hr ha => ?_⟩ <;>
    refine exists_decode_error fun i hi => ?_ <;> obtain ⟨hz', hf⟩ := hasFields_of_decode hi
  · exact hz hz'
  · exact hx (hf.ridx_eq_zero hop)
  · have hs := hf.src_eq_din hop
    rw [(srcField_eq_acc_iff cw).2 hb] at hs
    cases hs
  · rcases hf.op_mem with h | h | h
    · exact hd h
    · exact ha h
    · exact hr h

/-- Settles O1: the decoder evaluated at each word. -/
theorem sampleWordsDecode : Obligations.SampleWordsDecode := by
  unfold Obligations.SampleWordsDecode
  decide

/-! ### The opcode table (R79) -/

/-- Settles O60: the rows are those of the definition, and no row depends on the operands. -/
theorem opcodeTableRows : Obligations.OpcodeTableRows := by
  unfold Obligations.OpcodeTableRows
  exact fun _ _ => rfl

theorem row_formatD {op : BitVec 8} {build : Src → Instr} (h : (op, build) ∈ formatD) (src : Src) :
    (build src).row.pattern = packFields op Src.din.bit 0#4 ∧ (build src).row.mask = 0xFF7F#16 ∧
      (build src).row = (build .din).row := by
  have hd : ∀ p ∈ formatD, (p.2 .din).row.pattern = packFields p.1 Src.din.bit 0#4 ∧ (p.2 .din).row.mask = 0xFF7F#16 ∧
      (p.2 .acc).row = (p.2 .din).row := by decide
  obtain ⟨hp, hm, hs⟩ := hd _ h
  have hrow : (build src).row = (build .din).row := by cases src <;> [rfl; exact hs]
  rw [hrow]; exact ⟨hp, hm, rfl⟩

/-- Words are equal when their fields are. -/
theorem eq_iff_fields (u v : CmdWord) : u = v ↔ opField u = opField v ∧ srcField u = srcField v ∧
    reservedField u = reservedField v ∧ ridxField u = ridxField v := by
  refine ⟨fun h => by rw [h]; simp, fun ⟨ho, hs, hz, hr⟩ => ?_⟩
  rw [← append_fields u, ho, hs, hz, hr, append_fields]

/-- A mask that keeps OP and the must-be-zero field asks for the two to be the pattern's, and for what it keeps of SRC and
RIDX to be zero. -/
theorem and_mask_eq_iff {m : CmdWord} (ho : opField m = 0xFF#8) (hz : reservedField m = 0x7#3) (cw : CmdWord)
    (op : BitVec 8) : cw &&& m = packFields op Src.din.bit 0#4 ↔
      reservedField cw = 0#3 ∧ opField cw = op ∧ (cw.getLsbD 7 && m.getLsbD 7) = false ∧
        ridxField cw &&& ridxField m = 0#4 := by
  have hop : opField (cw &&& m) = opField cw :=
    BitVec.extractLsb'_and.trans ((congrArg (opField cw &&& ·) ho).trans BitVec.and_allOnes)
  have hmbz : reservedField (cw &&& m) = reservedField cw :=
    BitVec.extractLsb'_and.trans ((congrArg (reservedField cw &&& ·) hz).trans BitVec.and_allOnes)
  have hsrc : srcField (cw &&& m) = .din ↔ (cw.getLsbD 7 && m.getLsbD 7) = false := by
    simp [srcField]
  have hridx : ridxField (cw &&& m) = ridxField cw &&& ridxField m := BitVec.extractLsb'_and
  rw [eq_iff_fields, opField_packFields, srcField_packFields, reservedField_packFields, ridxField_packFields, hop, hmbz,
    hsrc, hridx]
  tauto

theorem and_maskD_eq_iff (cw : CmdWord) (op : BitVec 8) : cw &&& 0xFF7F#16 = packFields op Src.din.bit 0#4 ↔
    reservedField cw = 0#3 ∧ opField cw = op ∧ ridxField cw = 0#4 := by
  have hridx : ridxField cw &&& ridxField 0xFF7F#16 = ridxField cw := BitVec.and_allOnes
  rw [and_mask_eq_iff (by decide) (by decide), hridx]; simp

theorem and_maskArk_eq_iff (cw : CmdWord) (op : BitVec 8) : cw &&& 0xFF70#16 = packFields op Src.din.bit 0#4 ↔
    reservedField cw = 0#3 ∧ opField cw = op := by
  have hridx : ridxField cw &&& ridxField 0xFF70#16 = 0#4 := BitVec.and_zero
  rw [and_mask_eq_iff (by decide) (by decide), hridx]; simp

theorem and_maskRdrk_eq_iff (cw : CmdWord) (op : BitVec 8) : cw &&& 0xFFF0#16 = packFields op Src.din.bit 0#4 ↔
    reservedField cw = 0#3 ∧ opField cw = op ∧ srcField cw = .din := by
  have hridx : ridxField cw &&& ridxField 0xFFF0#16 = 0#4 := BitVec.and_zero
  rw [and_mask_eq_iff (by decide) (by decide), hridx]; simp [srcField]

/-- The word of a command has, under the mask of the command's row, the row's pattern. -/
theorem HasFields.row_matches {i : Instr} {op : BitVec 8} {src : Src} {ridx : BitVec 4} (h : HasFields i op src ridx) :
    packFields op src.bit ridx &&& i.row.mask = i.row.pattern := by
  cases h with
  | entry hp =>
    obtain ⟨hpat, hmask, -⟩ := row_formatD hp src
    rw [hpat, hmask, and_maskD_eq_iff]; simp
  | ark => exact (and_maskArk_eq_iff _ 0x50#8).2 (by simp)
  | rdrk => exact (and_maskRdrk_eq_iff _ 0x41#8).2 (by simp)

/-- A word with the pattern of a row under the row's mask decodes to a command of that row. -/
theorem exists_decode_of_row_matches {cw : CmdWord} {j : Instr} (h : cw &&& j.row.mask = j.row.pattern) :
    ∃ i, decode cw = .ok i ∧ i.row = j.row := by
  rcases instr_cases j with ⟨build, src, hb, rfl⟩ | ⟨src, r, rfl⟩ | ⟨r, rfl⟩
  · obtain ⟨⟨op, _⟩, hp, rfl⟩ := List.mem_map.1 hb
    obtain ⟨hpat, hmask, hrow⟩ := row_formatD hp src
    rw [hpat, hmask] at h
    obtain ⟨hz, rfl, hr⟩ := (and_maskD_eq_iff cw op).1 h
    have hf := HasFields.entry hp (srcField cw)
    rw [← hr] at hf
    exact ⟨_, decode_of_hasFields hz hf, (row_formatD hp _).2.2.trans hrow.symm⟩
  · obtain ⟨hz, ho⟩ := (and_maskArk_eq_iff cw 0x50#8).1 h
    have hf := HasFields.ark (srcField cw) (ridxField cw)
    rw [← ho] at hf
    exact ⟨_, decode_of_hasFields hz hf, rfl⟩
  · obtain ⟨hz, ho, hs⟩ := (and_maskRdrk_eq_iff cw 0x41#8).1 h
    have hf := HasFields.rdrk (ridxField cw)
    rw [← ho, ← hs] at hf
    exact ⟨_, decode_of_hasFields hz hf, rfl⟩

/-- Settles O4: a word that decodes is that of its command, and what a row's pattern says of a word is what the decoder
asks of its fields. -/
theorem opcodeTableMasks : Obligations.OpcodeTableMasks := by
  unfold Obligations.OpcodeTableMasks
  refine ⟨fun cw i h => ?_, fun cw j => exists_decode_of_row_matches⟩
  obtain ⟨hz, hf⟩ := hasFields_of_decode h
  rw [← packFields_fields hz]; exact hf.row_matches

end Sys2Proof.Proofs
end

section
/-! PROOFS. The operands of commands (spec/30_encoding.md R75 to R77; spec/43_key_schedule.md R177): which commands do not read
`din`, and how much of its operand a byte or a word command reads. -/

namespace Sys2Proof.Proofs

open Sys2Proof.Machine

/-! ### Commands that do not read `din` (R75, R177) -/

/-- The state with other levels on the input ports. -/
def withPort (p : HostPort) (s : State) : State := { s with port := p }

section
variable (p : HostPort) (s : State)

@[simp] theorem withPort_rnd : (withPort p s).rnd = s.rnd := rfl
@[simp] theorem withPort_rkWord : (withPort p s).rkWord = s.rkWord := rfl
@[simp] theorem withPort_writeRkWord (i : Nat) (v : Word) :
    (withPort p s).writeRkWord i v = withPort p (s.writeRkWord i v) := by unfold State.writeRkWord; rfl

theorem loadKey_withPort (k : Block) : (withPort p s).loadKey k = withPort p (s.loadKey k) := by
  simp only [State.loadKey, withPort_writeRkWord]

theorem keyexpRound_withPort : keyexpRound (withPort p s) = withPort p (keyexpRound s) := by
  simp only [keyexpRound, withPort_rnd, withPort_rkWord, withPort_writeRkWord]

/-- A run of rounds that do not read the ports and leave them alone does neither itself. -/
theorem runRounds_withPort {work : State → State} (hw : ∀ u, work (withPort p u) = withPort p (work u))
    (l : List (BitVec 4)) : runRounds work l (withPort p s) = withPort p (runRounds work l s) := by
  induction l generalizing s with
  | nil => rfl
  | cons r l ih => rw [runRounds_cons, runRounds_cons, ← ih, ← hw]; rfl

/-- The rounds of ENC and DEC on `ACC`, from the start of the command to its completion. -/
theorem complete_runRounds_withPort {work : State → State} (hw : ∀ u, work (withPort p u) = withPort p (work u))
    (l : List (BitVec 4)) :
    (runRounds work l { (withPort p s).begin with acc := (withPort p s).operand .acc }).complete =
      withPort p (runRounds work l { s.begin with acc := s.operand .acc }).complete :=
  congrArg State.complete (runRounds_withPort p { s.begin with acc := s.operand .acc } hw l)

end

section
variable {p : HostPort} {s t : State}

theorem checked_withPort {fault : Option Cause} {work : State → State}
    (hw : work (withPort p s) = withPort p (work s)) (ht : checked fault s work = .next t) :
    checked fault (withPort p s) work = .next (withPort p t) := by
  cases fault with
  | some c => cases ht; rfl
  | none => cases ht; rw [checked_none, hw]

/-- A command with SRC = 1, or an RDRK, does not read the ports and leaves them alone. -/
theorem exec_withPort {i : Instr} (hi : srcField (encode i) = .acc ∨ ∃ r, i = .rdrk r) (ht : exec i s = .next t) :
    exec i (withPort p s) = .next (withPort p t) := by
  cases i with
  | keyexp src =>
    obtain rfl : src = .acc := by simpa [encode] using hi
    have hw := runRounds_withPort p (s.begin.loadKey s.acc) (keyexpRound_withPort p) keyexpOrder
    rw [← loadKey_withPort] at hw
    rw [exec_keyexp] at ht
    rw [exec_keyexp, ← Host.Outcome.next.inj ht]
    exact congrArg (fun u : State => Host.Outcome.next { u.complete with kv := true }) hw
  | rdrk r => exact checked_withPort (fault := indexKeyFault r s) (work := fun s => s.finish (s.rkey r)) rfl ht
  | ark src r =>
    obtain rfl : src = .acc := by simpa [encode] using hi
    exact checked_withPort (fault := indexKeyFault r s)
      (work := fun s => s.finish (addRoundKey (s.operand .acc) (s.rkey r))) rfl ht
  | enc src =>
    obtain rfl : src = .acc := by simpa [encode] using hi
    exact checked_withPort (fault := keyFault s)
      (work := fun s => (runRounds encRound encOrder { s.begin with acc := s.operand .acc }).complete)
      (complete_runRounds_withPort p s (work := encRound) (fun _ => rfl) encOrder) ht
  | dec src =>
    obtain rfl : src = .acc := by simpa [encode] using hi
    exact checked_withPort (fault := keyFault s)
      (work := fun s => (runRounds decRound decOrder { s.begin with acc := s.operand .acc }).complete)
      (complete_runRounds_withPort p s (work := decRound) (fun _ => rfl) decOrder) ht
  | _ src =>
    obtain rfl : src = .acc := by simpa [encode] using hi
    cases ht; rfl

end

/-- Settles O18: the word of each of these commands has SRC = 1 or is that of an RDRK, and such a command does not read the
ports. -/
theorem accOperandIgnoresDin : Obligations.AccOperandIgnoresDin := by
  unfold Obligations.AccOperandIgnoresDin
  intro s d i hi
  obtain ⟨t, ht⟩ := exec_next i s
  refine ⟨t, ht, exec_withPort ?_ ht⟩
  rcases hi with ⟨build, hb, rfl⟩ | ⟨r, rfl⟩ | hr
  · obtain ⟨⟨op, _⟩, hp, rfl⟩ := List.mem_map.1 hb
    rw [encode_formatD hp]; exact .inl (srcField_packFields ..)
  · exact .inl (srcField_packFields ..)
  · exact .inr hr

/-! ### Byte and word commands (R76, R77) -/

/-- A command on the low `n` bits of its operand, with the bits from `n` up of its result zero: the operand's other bits have
no effect, whichever source it comes from. -/
theorem narrow_command {n m : Nat} {build : Src → Instr} {f : BitVec n → Block}
    (hexec : ∀ src s, exec (build src) s = .next (s.finish (f ((s.operand src).extractLsb' 0 n))))
    (hf : ∀ x, (f x).extractLsb' n m = 0#m) (s : State) {v w : Block}
    (h : v.extractLsb' 0 n = w.extractLsb' 0 n) :
    exec (build .acc) { s with acc := v } = exec (build .acc) { s with acc := w } ∧
    ∃ y : Block, y.extractLsb' n m = 0#m ∧
      exec (build .din) { s with port := { s.port with din := v } } =
        .next { s with acc := y, rnd := 0#4, busy := false, port := { s.port with din := v } } ∧
      exec (build .din) { s with port := { s.port with din := w } } =
        .next { s with acc := y, rnd := 0#4, busy := false, port := { s.port with din := w } } := by
  simp only [hexec]
  refine ⟨?_, f (v.extractLsb' 0 n), hf _, rfl, ?_⟩
  · simp only [State.operand, h]; rfl
  · simp only [State.operand, h]; rfl

theorem zextByte_high (x : Byte) : (zextByte x).extractLsb' 8 120 = 0#120 := by
  ext i hi; simp [zextByte]

theorem zextWord_high (x : Word) : (zextWord x).extractLsb' 32 96 = 0#96 := by
  ext i hi; simp [zextWord]

/-- The meaning of the ten byte commands. -/
theorem exec_byteCommand : ∀ build ∈ [Instr.gf2, .gf3, .gf4, .gf8, .gf9, .gf11, .gf13, .gf14, .sboxb, .isboxb],
    ∃ f, ∀ src s, exec (build src) s = byteCommand f src s := by
  simp only [List.forall_mem_cons]
  exact ⟨⟨mul2, fun _ _ => rfl⟩, ⟨mul3, fun _ _ => rfl⟩, ⟨mul4, fun _ _ => rfl⟩, ⟨mul8, fun _ _ => rfl⟩,
    ⟨mul9, fun _ _ => rfl⟩, ⟨mul11, fun _ _ => rfl⟩, ⟨mul13, fun _ _ => rfl⟩, ⟨mul14, fun _ _ => rfl⟩,
    ⟨sbox, fun _ _ => rfl⟩, ⟨invSbox, fun _ _ => rfl⟩, List.forall_mem_nil _⟩

/-- The meaning of the three word commands. -/
theorem exec_wordCommand : ∀ build ∈ [Instr.subw, .mixcol, .imixcol],
    ∃ f, ∀ src s, exec (build src) s = wordCommand f src s := by
  simp only [List.forall_mem_cons]
  exact ⟨⟨subWord, fun _ _ => rfl⟩, ⟨mixColumn, fun _ _ => rfl⟩, ⟨invMixColumn, fun _ _ => rfl⟩, List.forall_mem_nil _⟩

/-- Settles O19: the operand of a byte command is the low byte of the block, that of a word command the low word, and the
result is zero-extended. -/
theorem narrowOperands : Obligations.NarrowOperands := by
  unfold Obligations.NarrowOperands
  refine ⟨fun build hb s v w h => ?_, fun build hb s v w h => ?_⟩
  · obtain ⟨f, hf⟩ := exec_byteCommand build hb
    exact narrow_command hf (fun x => zextByte_high (f x)) s h
  · obtain ⟨f, hf⟩ := exec_wordCommand build hb
    exact narrow_command hf (fun x => zextWord_high (f x)) s h

end Sys2Proof.Proofs
end

section
/-! PROOFS. The command syntax (spec/30_encoding.md R84, R85): what a line assembles to, by the form of the line. -/

namespace Sys2Proof.Proofs

open Sys2Proof.Machine

/-! ### Literals -/

theorem hexValue_append_singleton (ds : List (Fin 16)) (x : Fin 16) :
    hexValue (ds ++ [x]) = 16 * hexValue ds + x.val := List.foldl_append ..

theorem hexValue_lt (ds : List (Fin 16)) : hexValue ds < 16 ^ ds.length := by
  induction ds using List.reverseRecOn with
  | nil => decide
  | append_singleton ds x ih =>
    rw [hexValue_append_singleton, List.length_append, List.length_singleton, Nat.pow_succ]
    omega

/-- Every number of `n` hex digits is the value of `n` digits. -/
theorem exists_hexValue_eq {n v : Nat} (h : v < 16 ^ n) : ∃ ds : List (Fin 16), ds.length = n ∧ hexValue ds = v := by
  induction n generalizing v with
  | zero => exact ⟨[], rfl, (Nat.lt_one_iff.1 h).symm⟩
  | succ n ih =>
    obtain ⟨ds, hl, hv⟩ := ih (v := v / 16) (by rw [Nat.pow_succ] at h; omega)
    refine ⟨ds ++ [Fin.ofNat 16 v], by simp [hl], ?_⟩
    rw [hexValue_append_singleton, hv]
    exact Nat.div_add_mod v 16

/-! ### Operands -/

/-- What an operand stands for: a literal of 1 to 32 digits its value on `din`, `ACC` the accumulator with 0 on `din`. -/
inductive OperandOf : Src → Block → AsmOperand → Prop
  | literal {ds : List (Fin 16)} (hne : ds ≠ []) (hlen : ds.length ≤ 32) :
    OperandOf .din (BitVec.ofNat 128 (hexValue ds)) (.literal ds)
  | acc : OperandOf .acc 0#128 .acc

theorem source_eq_some_iff (o : AsmOperand) (src : Src) (d : Block) :
    o.source = some (src, d) ↔ OperandOf src d o := by
  refine ⟨fun h => ?_, fun h => ?_⟩
  · cases o with
    | literal ds =>
      simp only [AsmOperand.source] at h
      split at h
      next hds => cases h; exact .literal hds.1 hds.2
      next => cases h
    | acc => cases h; exact .acc
  · cases h with
    | literal hne hlen => exact if_pos ⟨hne, hlen⟩
    | acc => rfl

section
variable {src : Src} {d : Block} {o : AsmOperand} (h : OperandOf src d o)
include h

theorem OperandOf.src_eq_acc_iff : src = .acc ↔ o = .acc := by cases h <;> simp

/-- The data value of an operand is its literal's, since 32 digits fit `din`, and 0 for `ACC`. -/
theorem OperandOf.data_spec :
    (∀ ds, some o = some (.literal ds) → ds ≠ [] ∧ ds.length ≤ 32 ∧ d.toNat = hexValue ds) ∧
      ((∀ ds, some o ≠ some (.literal ds)) → d = 0#128) := by
  cases h with
  | @literal ds hne hlen =>
    refine ⟨fun _ hds => ?_, fun hn => absurd rfl (hn _)⟩
    cases hds
    have hlt := (hexValue_lt ds).trans_le (Nat.pow_le_pow_right (by decide : 0 < 16) hlen)
    exact ⟨hne, hlen, by rw [BitVec.toNat_ofNat]; exact Nat.mod_eq_of_lt hlt⟩
  | acc => exact ⟨by simp, fun _ => rfl⟩

end

/-- Every source with every data value it can have is an operand. -/
theorem exists_operandOf {src : Src} {d : Block} (h : src = .acc → d = 0#128) : ∃ o, OperandOf src d o := by
  cases src with
  | acc => rw [h rfl]; exact ⟨_, .acc⟩
  | din =>
    obtain ⟨ds, hlen, hv⟩ := exists_hexValue_eq (n := 32) d.isLt
    have hd : d = BitVec.ofNat 128 (hexValue ds) := by rw [hv, BitVec.ofNat_toNat, BitVec.setWidth_eq]
    rw [hd]
    exact ⟨_, .literal (by rintro rfl; cases hlen) hlen.le⟩

/-! ### Mnemonics -/

/-- A mnemonic of format D names a command of the opcode table: the row's own mnemonic, or `DBL` for GF2 (R85). -/
theorem asmFormatD_spec {m : String} {build : Src → Instr} (h : asmFormatD.lookup m = some build) :
    (m ≠ "ARK" ∧ m ≠ "RDRK") ∧ (∃ op, (op, build) ∈ formatD) ∧
      (build .din).row.mnemonic = if m = "DBL" then "GF2" else m := by
  have hops : ∀ p ∈ asmFormatD, formatD.lookup (opField (encode (p.2 .din))) = some p.2 := by
    simp only [asmFormatD, List.forall_mem_cons]
    and_intros
    iterate 23 rfl
    exact List.forall_mem_nil _
  have hrows : ∀ p ∈ asmFormatD, (p.1 ≠ "ARK" ∧ p.1 ≠ "RDRK") ∧
      (p.2 .din).row.mnemonic = if p.1 = "DBL" then "GF2" else p.1 := by decide
  have hmem : (m, build) ∈ asmFormatD := mem_of_lookup h
  exact ⟨(hrows _ hmem).1, ⟨_, mem_of_lookup (hops _ hmem)⟩, (hrows _ hmem).2⟩

/-- The mnemonic of a format D row names the row's command. -/
theorem lookup_asmFormatD {op : BitVec 8} {build : Src → Instr} (h : (op, build) ∈ formatD) (src : Src) :
    asmFormatD.lookup (build src).row.mnemonic = some build := by
  have hl : ∀ p ∈ formatD, asmFormatD.lookup (p.2 .din).row.mnemonic = some p.2 := by
    simp only [formatD, List.forall_mem_cons]
    and_intros
    iterate 22 rfl
    exact List.forall_mem_nil _
  rw [(row_formatD h src).2.2]
  exact hl _ h

/-! ### Lines -/

/-- The lines that stand for a command with a data value: one case for each form of R84. -/
inductive LineOf : Instr → Block → AsmLine → Prop
  | formatD {m : String} {build : Src → Instr} {o : AsmOperand} {src : Src} {d : Block}
    (hm : asmFormatD.lookup m = some build) (ho : OperandOf src d o) : LineOf (build src) d ⟨m, none, some o⟩
  | ark {r : Nat} {o : AsmOperand} {src : Src} {d : Block} (hr : r ≤ 15) (ho : OperandOf src d o) :
    LineOf (.ark src r) d ⟨"ARK", some r, some o⟩
  | rdrk {r : Nat} (hr : r ≤ 15) : LineOf (.rdrk r) 0#128 ⟨"RDRK", some r, none⟩

theorem command_eq_some_iff (l : AsmLine) (i : Instr) (d : Block) : l.command = some (i, d) ↔ LineOf i d l := by
  refine ⟨fun h => ?_, fun h => ?_⟩
  · obtain ⟨m, r, o⟩ := l
    unfold AsmLine.command at h
    split at h
    next build hm =>
      split at h
      next o' hr ho =>
        obtain ⟨⟨src, d'⟩, hs, hd⟩ := Option.map_eq_some_iff.1 h
        cases hr; cases ho; cases hd
        exact .formatD hm ((source_eq_some_iff ..).1 hs)
      next => cases h
    next =>
      split at h
      next hm =>
        split at h
        next r' o' hr ho =>
          split at h
          next hle =>
            obtain ⟨⟨src, d'⟩, hs, hd⟩ := Option.map_eq_some_iff.1 h
            cases hm; cases hr; cases ho; cases hd
            exact .ark hle ((source_eq_some_iff ..).1 hs)
          next => cases h
        next => cases h
      next =>
        split at h
        next hm =>
          split at h
          next r' hr ho =>
            split at h
            next hle => cases hm; cases hr; cases ho; cases h; exact .rdrk hle
            next => cases h
          next => cases h
        next => cases h
  · cases h with
    | formatD hm ho => simp [AsmLine.command, hm, (source_eq_some_iff ..).2 ho]
    | ark hr ho =>
      have hn : asmFormatD.lookup "ARK" = none := rfl
      simp [AsmLine.command, hn, hr, (source_eq_some_iff ..).2 ho]
    | rdrk hr =>
      have hn : asmFormatD.lookup "RDRK" = none := rfl
      simp [AsmLine.command, hn, hr]

theorem assemble_eq_some_iff (l : AsmLine) (cw : CmdWord) (d : Block) :
    l.assemble = some (cw, d) ↔ ∃ i, LineOf i d l ∧ cw = encode i := by
  rw [AsmLine.assemble, Option.map_eq_some_iff]
  constructor
  · rintro ⟨⟨i, e⟩, hl, h⟩
    cases h
    exact ⟨i, (command_eq_some_iff ..).1 hl, rfl⟩
  · rintro ⟨i, hl, rfl⟩
    exact ⟨_, (command_eq_some_iff ..).2 hl, rfl⟩

/-! ### What a line assembles to -/

/-- The two spellings of GF2 (R85). -/
theorem assemble_DBL (r : Option Nat) (o : Option AsmOperand) :
    AsmLine.assemble ⟨"DBL", r, o⟩ = AsmLine.assemble ⟨"GF2", r, o⟩ := rfl

/-- A line fixes everything but the value of its literal. -/
theorem assemble_literal {m : String} {r : Option Nat} {ds es : List (Fin 16)} {cw : CmdWord} {d : Block}
    (h : AsmLine.assemble ⟨m, r, some (.literal ds)⟩ = some (cw, d)) (hne : es ≠ []) (hlen : es.length ≤ 32) :
    AsmLine.assemble ⟨m, r, some (.literal es)⟩ = some (cw, BitVec.ofNat 128 (hexValue es)) := by
  obtain ⟨i, hi, rfl⟩ := (assemble_eq_some_iff ..).1 h
  refine (assemble_eq_some_iff ..).2 ⟨i, ?_, rfl⟩
  cases hi with
  | formatD hm ho => cases ho; exact .formatD hm (.literal hne hlen)
  | ark hr ho => cases ho; exact .ark hr (.literal hne hlen)

/-- Every command that stands for a word has a line with its row's mnemonic, with any data value it can have. -/
theorem exists_lineOf {i : Instr} {d : Block} (hi : WellFormed i)
    (hd : (encode i).getLsbD 7 = true ∨ (∃ r, i = .rdrk r) → d = 0#128) :
    ∃ l : AsmLine, l.mnemonic = i.row.mnemonic ∧ LineOf i d l := by
  obtain ⟨op, src, ridx, hf⟩ := exists_hasFields hi
  have hsrc : src = .acc → d = 0#128 := fun h =>
    hd (.inl ((srcField_eq_acc_iff _).1 (by rw [hf.encode_eq, srcField_packFields, h])))
  cases hf with
  | entry hp =>
    obtain ⟨o, ho⟩ := exists_operandOf hsrc
    exact ⟨_, rfl, .formatD (lookup_asmFormatD hp src) ho⟩
  | ark =>
    obtain ⟨o, ho⟩ := exists_operandOf hsrc
    exact ⟨_, rfl, .ark (Nat.le_of_lt_succ ridx.isLt) ho⟩
  | rdrk =>
    rw [hd (.inr ⟨_, rfl⟩)]
    exact ⟨_, rfl, .rdrk (Nat.le_of_lt_succ ridx.isLt)⟩

/-- The fields of the command of a line: its SRC is 1 exactly for `ACC`, its RIDX the line's. -/
theorem LineOf.hasFields {i : Instr} {d : Block} {l : AsmLine} (h : LineOf i d l) :
    ∃ op src ridx, HasFields i op src ridx ∧ (src = .acc ↔ l.operand = some .acc) ∧ ridx.toNat = l.ridx.getD 0 := by
  cases h with
  | formatD hm ho =>
    obtain ⟨-, ⟨op, hp⟩, -⟩ := asmFormatD_spec hm
    exact ⟨_, _, _, .entry hp _, by simp [ho.src_eq_acc_iff], rfl⟩
  | ark hr ho =>
    obtain ⟨ridx, rfl⟩ := exists_toNat_eq (Nat.lt_succ_of_le hr)
    exact ⟨_, _, _, .ark _ ridx, by simp [ho.src_eq_acc_iff], rfl⟩
  | rdrk hr =>
    obtain ⟨ridx, rfl⟩ := exists_toNat_eq (Nat.lt_succ_of_le hr)
    exact ⟨_, _, _, .rdrk ridx, by simp, rfl⟩

/-- The mnemonic of a line is that of the command's row, or `DBL`, and says which operands the line has. -/
theorem LineOf.mnemonic_spec {i : Instr} {d : Block} {l : AsmLine} (h : LineOf i d l) :
    (i.row.mnemonic = if l.mnemonic = "DBL" then "GF2" else l.mnemonic) ∧ (l.operand = none ↔ l.mnemonic = "RDRK") ∧
      (l.ridx.isSome = true ↔ l.mnemonic = "ARK" ∨ l.mnemonic = "RDRK") := by
  cases h with
  | formatD hm ho =>
    obtain ⟨⟨hark, hrdrk⟩, ⟨op, hp⟩, hrow⟩ := asmFormatD_spec hm
    exact ⟨by rw [(row_formatD hp _).2.2, hrow], by simp [hrdrk], by simp [hark, hrdrk]⟩
  | ark => exact ⟨rfl, by simp, by simp⟩
  | rdrk => exact ⟨rfl, by simp, by simp⟩

/-- The data value of a line is its literal's, and 0 without one. -/
theorem LineOf.data_spec {i : Instr} {d : Block} {l : AsmLine} (h : LineOf i d l) :
    (∀ ds, l.operand = some (.literal ds) → ds ≠ [] ∧ ds.length ≤ 32 ∧ d.toNat = hexValue ds) ∧
      ((∀ ds, l.operand ≠ some (.literal ds)) → d = 0#128) := by
  cases h with
  | formatD _ ho => exact ho.data_spec
  | ark _ ho => exact ho.data_spec
  | rdrk => exact ⟨by simp, fun _ => rfl⟩

/-- Settles O59: a line is one of the three forms, and each fixes the fields, the row and the data value of its command. -/
theorem assemblerMatchesTheDecoder : Obligations.AssemblerMatchesTheDecoder := by
  unfold Obligations.AssemblerMatchesTheDecoder
  refine ⟨fun l cw d h => ?_, fun i d hi hd => ?_, fun _ _ _ _ _ _ => assemble_literal,
    ⟨rfl, hexValue_append_singleton⟩, assemble_DBL⟩
  · obtain ⟨i, hl, rfl⟩ := (assemble_eq_some_iff ..).1 h
    obtain ⟨op, src, ridx, hf, hsrc, hridx⟩ := hl.hasFields
    obtain ⟨hrow, hnone, hindex⟩ := hl.mnemonic_spec
    obtain ⟨hliteral, hzero⟩ := hl.data_spec
    refine ⟨⟨i, decodeAfterEncode i hf.wellFormed, hrow⟩, ?_, hnone, ?_, hindex, hliteral, hzero⟩
    · rw [← srcField_eq_acc_iff, hf.encode_eq, srcField_packFields, hsrc]
    · rw [hf.encode_eq, ridxField_packFields, hridx]
  · obtain ⟨l, hm, hl⟩ := exists_lineOf hi hd
    exact ⟨l, hm, (assemble_eq_some_iff ..).2 ⟨i, hl, rfl⟩⟩

end Sys2Proof.Proofs
end

section
/-! PROOFS. The GF(2^8) multiplier (spec/40_gf256.md). `GFmul(a, ·)` is the polynomial `a` in the doubling (R118), so it commutes
with every linear function that commutes with doubling; with `GFmul(a, 1) = a` this gives the laws of the product (R119). -/

namespace Sys2Proof.Proofs

open Sys2Proof.Machine

/-! ### Doubling (R101) -/

/-- Settles O29: bit 7 says whether the byte is below 128, so whether the shift drops 256. -/
theorem doublingRule : Obligations.DoublingRule := by
  unfold Obligations.DoublingRule
  refine ⟨fun x => ?_, by decide⟩
  have hbit : x.getLsbD 7 = decide (128 ≤ x.toNat) := BitVec.msb_eq_decide x
  have hx := x.isLt
  rw [dbl, hbit, BitVec.toNat_xor, BitVec.toNat_shiftLeft, Nat.shiftLeft_eq]
  by_cases hlow : x.toNat < 128
  · rw [if_pos hlow, if_neg (by simpa using hlow), Nat.mod_eq_of_lt (by omega), Nat.mul_comm]
    exact Nat.xor_zero _
  · rw [if_neg hlow, if_pos (by simpa using hlow), show x.toNat * 2 ^ 1 % 2 ^ 8 = 2 * x.toNat - 256 by omega]
    rfl

/-! ### The product (R118) -/

/-- A linear function that commutes with doubling goes through the loop of the product. -/
theorem map_gfmulLoop {f : Byte → Byte} (hxor : ∀ x y, f (x ^^^ y) = f x ^^^ f y) (hdbl : ∀ x, f (dbl x) = dbl (f x))
    (a : Byte) (is : List Nat) (p d : Byte) : f (gfmulLoop a is p d) = gfmulLoop a is (f p) (f d) := by
  induction is generalizing p d with
  | nil => rfl
  | cons i is ih => rw [gfmulLoop, gfmulLoop, ih, apply_ite f, hxor, hdbl]

/-- The loop of the product is linear in its sum and its doubling together. -/
theorem gfmulLoop_xor (a : Byte) (is : List Nat) (p q d e : Byte) :
    gfmulLoop a is (p ^^^ q) (d ^^^ e) = gfmulLoop a is p d ^^^ gfmulLoop a is q e := by
  induction is generalizing p q d e with
  | nil => rfl
  | cons i is ih =>
    have hsum : (p ^^^ q) ^^^ (d ^^^ e) = (p ^^^ d) ^^^ (q ^^^ e) := by ac_rfl
    simp only [gfmulLoop, dbl_xor, ← ih]
    split
    · rw [hsum]
    · rfl

/-- A linear function maps 0 to 0. -/
theorem map_zero_of_xor {f : Byte → Byte} (hxor : ∀ x y, f (x ^^^ y) = f x ^^^ f y) : f 0#8 = 0#8 := by
  have h := hxor 0#8 0#8
  rwa [BitVec.xor_self, BitVec.xor_self] at h

theorem gfmul_xor (a x y : Byte) : gfmul a (x ^^^ y) = gfmul a x ^^^ gfmul a y :=
  gfmulLoop_xor a _ 0#8 0#8 x y

theorem gfmul_zero (a : Byte) : gfmul a 0#8 = 0#8 := map_zero_of_xor (gfmul_xor a)

/-- A linear function that commutes with doubling commutes with every product. -/
theorem map_gfmul {f : Byte → Byte} (hxor : ∀ x y, f (x ^^^ y) = f x ^^^ f y) (hdbl : ∀ x, f (dbl x) = dbl (f x))
    (a x : Byte) : f (gfmul a x) = gfmul a (f x) := by
  rw [gfmul, map_gfmulLoop hxor hdbl, map_zero_of_xor hxor]; rfl

theorem gfmul_dbl (a x : Byte) : gfmul a (dbl x) = dbl (gfmul a x) := (map_gfmul dbl_xor (fun _ => rfl) a x).symm

theorem gfmul_left_comm (a b x : Byte) : gfmul a (gfmul b x) = gfmul b (gfmul a x) :=
  map_gfmul (gfmul_xor a) (gfmul_dbl a) b x

/-- A bit of the sum after one turn of the loop. -/
theorem getElem_ite_xor (c : Bool) (p d : Byte) (j : Nat) (hj : j < 8) :
    (if c then p ^^^ d else p)[j] = (p[j] ^^ (c && d[j])) := by
  cases c <;> simp

/-- The eight doublings of 1 are the eight single bits, so bit `j` of the sum is bit `j` of `a`. -/
theorem gfmul_one (a : Byte) : gfmul a 1#8 = a := by
  ext j hj
  simp only [gfmul, gfmulLoop, getElem_ite_xor]
  interval_cases j <;> simp [dbl]

theorem gfmul_comm (a x : Byte) : gfmul a x = gfmul x a := calc
  gfmul a x = gfmul a (gfmul x 1#8) := by rw [gfmul_one]
  _ = gfmul x (gfmul a 1#8) := gfmul_left_comm a x 1#8
  _ = gfmul x a := by rw [gfmul_one]

theorem gfmul_assoc (a b x : Byte) : gfmul a (gfmul b x) = gfmul (gfmul a b) x := calc
  gfmul a (gfmul b x) = gfmul a (gfmul x b) := by rw [gfmul_comm b x]
  _ = gfmul x (gfmul a b) := gfmul_left_comm a x b
  _ = gfmul (gfmul a b) x := gfmul_comm ..

theorem xor_gfmul (a b x : Byte) : gfmul (a ^^^ b) x = gfmul a x ^^^ gfmul b x := by
  simp only [gfmul_comm _ x, gfmul_xor]

theorem one_gfmul (x : Byte) : gfmul 1#8 x = x := (gfmul_comm ..).trans (gfmul_one x)

/-! ### The constant multipliers (R102 to R109) -/

theorem mul2_eq_gfmul (x : Byte) : mul2 x = gfmul 2#8 x := calc
  dbl x = dbl (gfmul x 1#8) := by rw [gfmul_one]
  _ = gfmul x 2#8 := (gfmul_dbl x 1#8).symm
  _ = gfmul 2#8 x := gfmul_comm ..

theorem mul4_eq_gfmul (x : Byte) : mul4 x = gfmul 4#8 x := calc
  mul2 (mul2 x) = gfmul 2#8 (gfmul 2#8 x) := by simp only [mul2_eq_gfmul]
  _ = gfmul 4#8 x := gfmul_assoc ..

theorem mul8_eq_gfmul (x : Byte) : mul8 x = gfmul 8#8 x := calc
  mul2 (mul4 x) = gfmul 2#8 (gfmul 4#8 x) := by rw [mul2_eq_gfmul, mul4_eq_gfmul]
  _ = gfmul 8#8 x := gfmul_assoc ..

theorem mul3_eq_gfmul (x : Byte) : mul3 x = gfmul 3#8 x := calc
  mul2 x ^^^ x = gfmul 2#8 x ^^^ gfmul 1#8 x := by rw [mul2_eq_gfmul, one_gfmul]
  _ = gfmul 3#8 x := (xor_gfmul 2#8 1#8 x).symm

theorem mul9_eq_gfmul (x : Byte) : mul9 x = gfmul 9#8 x := calc
  mul8 x ^^^ x = gfmul 8#8 x ^^^ gfmul 1#8 x := by rw [mul8_eq_gfmul, one_gfmul]
  _ = gfmul 9#8 x := (xor_gfmul 8#8 1#8 x).symm

theorem mul11_eq_gfmul (x : Byte) : mul11 x = gfmul 11#8 x := calc
  mul8 x ^^^ mul2 x ^^^ x = gfmul 8#8 x ^^^ gfmul 2#8 x ^^^ gfmul 1#8 x := by
    rw [mul8_eq_gfmul, mul2_eq_gfmul, one_gfmul]
  _ = gfmul (8#8 ^^^ 2#8 ^^^ 1#8) x := by rw [xor_gfmul, xor_gfmul]

theorem mul13_eq_gfmul (x : Byte) : mul13 x = gfmul 13#8 x := calc
  mul8 x ^^^ mul4 x ^^^ x = gfmul 8#8 x ^^^ gfmul 4#8 x ^^^ gfmul 1#8 x := by
    rw [mul8_eq_gfmul, mul4_eq_gfmul, one_gfmul]
  _ = gfmul (8#8 ^^^ 4#8 ^^^ 1#8) x := by rw [xor_gfmul, xor_gfmul]

theorem mul14_eq_gfmul (x : Byte) : mul14 x = gfmul 14#8 x := calc
  mul8 x ^^^ mul4 x ^^^ mul2 x = gfmul 8#8 x ^^^ gfmul 4#8 x ^^^ gfmul 2#8 x := by
    rw [mul8_eq_gfmul, mul4_eq_gfmul, mul2_eq_gfmul]
  _ = gfmul (8#8 ^^^ 4#8 ^^^ 2#8) x := by rw [xor_gfmul, xor_gfmul]

/-- The meaning of the eight GF commands. -/
theorem exec_gfCommand : ∀ p ∈ [(Instr.gf2, 2#8), (.gf3, 3#8), (.gf4, 4#8), (.gf8, 8#8), (.gf9, 9#8), (.gf11, 11#8),
    (.gf13, 13#8), (.gf14, 14#8)], ∀ src s, exec (p.1 src) s = byteCommand (gfmul p.2) src s := by
  simp only [List.forall_mem_cons, ← funext mul2_eq_gfmul, ← funext mul3_eq_gfmul, ← funext mul4_eq_gfmul,
    ← funext mul8_eq_gfmul, ← funext mul9_eq_gfmul, ← funext mul11_eq_gfmul, ← funext mul13_eq_gfmul,
    ← funext mul14_eq_gfmul]
  exact ⟨fun _ _ => rfl, fun _ _ => rfl, fun _ _ => rfl, fun _ _ => rfl, fun _ _ => rfl, fun _ _ => rfl, fun _ _ => rfl,
    fun _ _ => rfl, List.forall_mem_nil _⟩

/-- Settles O30: a GF command is the byte command of the product with its constant. -/
theorem gfCommandsMultiply : Obligations.GfCommandsMultiply := by
  unfold Obligations.GfCommandsMultiply
  intro s src p hp
  rw [exec_gfCommand p hp]
  exact byteCommand_next ..

/-- Each constant multiplier is the product with its constant, and the constant has an inverse. -/
theorem constantMultiplier_spec : ∀ p ∈ [(mul2, 2#8), (mul3, 3#8), (mul4, 4#8), (mul8, 8#8), (mul9, 9#8), (mul11, 11#8),
    (mul13, 13#8), (mul14, 14#8)], p.1 = gfmul p.2 ∧ ∃ u, gfmul u p.2 = 1#8 := by
  simp only [List.forall_mem_cons]
  exact ⟨⟨funext mul2_eq_gfmul, 0x8D#8, rfl⟩, ⟨funext mul3_eq_gfmul, 0xF6#8, rfl⟩, ⟨funext mul4_eq_gfmul, 0xCB#8, rfl⟩,
    ⟨funext mul8_eq_gfmul, 0xE8#8, rfl⟩, ⟨funext mul9_eq_gfmul, 0x4F#8, rfl⟩, ⟨funext mul11_eq_gfmul, 0xC0#8, rfl⟩,
    ⟨funext mul13_eq_gfmul, 0xE1#8, rfl⟩, ⟨funext mul14_eq_gfmul, 0xE5#8, rfl⟩, List.forall_mem_nil _⟩

/-- The product with an element that has an inverse is undone by the product with the inverse. -/
theorem gfmul_cancel {u c : Byte} (h : gfmul u c = 1#8) (x : Byte) : gfmul u (gfmul c x) = x := by
  rw [gfmul_assoc, h, one_gfmul]

/-- Settles O31: a constant multiplier is a product with an element that has an inverse. -/
theorem fieldLaws : Obligations.FieldLaws := by
  unfold Obligations.FieldLaws
  refine ⟨dbl_xor, fun p hp => ?_, gfmul_comm, xor_gfmul, gfmul_assoc⟩
  obtain ⟨hmul, u, hu⟩ := constantMultiplier_spec p hp
  have hu' : gfmul p.2 u = 1#8 := (gfmul_comm ..).trans hu
  rw [hmul]
  exact ⟨gfmul_xor p.2, gfmul_zero p.2, gfmul_one p.2,
    fun x y h => Function.LeftInverse.injective (gfmul_cancel hu) h, fun y => ⟨gfmul u y, gfmul_cancel hu' y⟩⟩

end Sys2Proof.Proofs
end

section
/-! PROOFS. The S-box substitution engine (spec/41_sbox.md). The tables are data (R130, R131), so three facts over the 256 bytes
are checked entry by entry; the rest follows from them by counting, byte by byte, or by the laws of blocks and words. -/

namespace Sys2Proof.Proofs

open Sys2Proof.Machine

/-! ### The two tables (R135) -/

/-- The inverse table at each entry of the forward table is the entry's index. -/
theorem invSbox_sbox : Function.LeftInverse invSbox sbox := by
  unfold Function.LeftInverse
  decide

/-- An injective map of the finitely many bytes is onto. -/
theorem sbox_surjective : Function.Surjective sbox := Finite.surjective_of_injective invSbox_sbox.injective

theorem sbox_invSbox : Function.RightInverse invSbox sbox := invSbox_sbox.rightInverse_of_surjective sbox_surjective

/-- Substituting the bytes of a block in their places is undone by a substitution that undoes it on bytes. -/
theorem mkBlock_map_leftInverse {f g : Byte → Byte} (h : Function.LeftInverse g f) (v : Block) :
    (mkBlock fun i => g (blockByte (mkBlock fun j => f (blockByte v j)) i)) = v := by
  simp only [blockByte_mkBlock, h _]
  exact mkBlock_blockByte v

theorem invSubBlock_subBlock (v : Block) : invSubBlock (subBlock v) = v := mkBlock_map_leftInverse invSbox_sbox v

theorem subBlock_invSubBlock (v : Block) : subBlock (invSubBlock v) = v := mkBlock_map_leftInverse sbox_invSbox v

/-- Settles O34: the inverse table undoes the forward one, and the rest follows by counting and byte by byte; the
substitution is not linear at 1 and 2. -/
theorem substitutionTablesAreInverse : Obligations.SubstitutionTablesAreInverse := by
  unfold Obligations.SubstitutionTablesAreInverse
  refine ⟨fun x y h => invSbox_sbox.injective h, sbox_surjective, invSbox_sbox, sbox_invSbox, invSubBlock_subBlock,
    subBlock_invSubBlock, ⟨0x01#8, 0x02#8, ?_⟩, rfl⟩
  decide

/-! ### How the forward table is made (R132) -/

/-- The affine map of R132. -/
def affineImage (u : Byte) : Byte :=
  u ^^^ u.rotateLeft 1 ^^^ u.rotateLeft 2 ^^^ u.rotateLeft 3 ^^^ u.rotateLeft 4 ^^^ 0x63#8

/-- The byte whose affine image is `y`: with `r` for a rotation by one, `(1 + r + r² + r³ + r⁴)(r + r³ + r⁶) = 1` modulo 2 and
`r⁸ = 1`, and the image of `0x05` is XORed with `0x63` to 0. -/
def affinePreimage (y : Byte) : Byte := y.rotateLeft 1 ^^^ y.rotateLeft 3 ^^^ y.rotateLeft 6 ^^^ 0x05#8

theorem affineImage_affinePreimage : ∀ y : Byte, affineImage (affinePreimage y) = y := by decide

/-- The affine preimage of each entry but the first is the field inverse of the entry's index. -/
theorem gfmul_affinePreimage_sbox :
    ∀ x : Byte, x ≠ 0x00#8 → gfmul x (affinePreimage (sbox x)) = 0x01#8 := by decide

/-- Settles O35: the affine map is undone by its preimage, which takes the entry of `x` to the field inverse of `x`, and that
of 0 to 0. -/
theorem substitutionTableConstruction : Obligations.SubstitutionTableConstruction := by
  unfold Obligations.SubstitutionTableConstruction
  intro x
  refine ⟨affinePreimage (sbox x), ?_, (affineImage_affinePreimage (sbox x)).symm⟩
  by_cases hx : x = 0x00#8
  · subst hx; exact .inl ⟨rfl, rfl⟩
  · exact .inr (gfmul_affinePreimage_sbox x hx)

/-! ### The commands (R136, R137, R138) -/

/-- Byte `j` of the low word of a block, by its bits (R5, R76). -/
theorem wordByte_extractLsb' (v : Block) (j : Fin 4) :
    wordByte (v.extractLsb' 0 32) j = v.extractLsb' (24 - 8 * j.val) 8 := by
  ext i hi
  simp [wordByte]

/-- The four substituted bytes of the low word of a block (R133). -/
theorem subWord_extractLsb' (v : Block) :
    subWord (v.extractLsb' 0 32) = sbox (v.extractLsb' 24 8) ++ sbox (v.extractLsb' 16 8) ++
      sbox (v.extractLsb' 8 8) ++ sbox (v.extractLsb' 0 8) := by
  simp [subWord, wordByte_extractLsb', mkWord]

/-- Settles O33: SBOXB and ISBOXB are byte commands and SUBW is a word command, whose word is substituted byte by byte. -/
theorem substitutionCommands : Obligations.SubstitutionCommands := by
  unfold Obligations.SubstitutionCommands
  intro s src
  refine ⟨byteCommand_next sbox src s, byteCommand_next invSbox src s, ?_⟩
  rw [← subWord_extractLsb']
  exact wordCommand_next subWord src s

end Sys2Proof.Proofs
end

section
/-! PROOFS. The MixColumns circulant-matrix multiplier (spec/42_mixcolumns.md). The two column functions are the products of a
column with the two matrices (R152, R153); what R154 and R158 say of them is said here of the product with any matrix, from the
laws of the field (R119) and facts about the entries. -/

namespace Sys2Proof.Proofs

open Sys2Proof.Machine

/-! ### Rows, columns and matrices over the field -/

/-- A row times a column: the XOR over `j` of `GFmul(c_j, a_j)` (R152). -/
def rowTimes (c : Fin 4 → Byte) (w : Word) : Byte :=
  gfmul (c 0) (wordByte w 0) ^^^ gfmul (c 1) (wordByte w 1) ^^^ gfmul (c 2) (wordByte w 2) ^^^ gfmul (c 3) (wordByte w 3)

/-- An entry of the product of two matrices, computed with `GFmul` and XOR (R158). -/
def matrixMul (N M : Fin 4 → Fin 4 → Byte) (i j : Fin 4) : Byte :=
  gfmul (N i 0) (M 0 j) ^^^ gfmul (N i 1) (M 1 j) ^^^ gfmul (N i 2) (M 2 j) ^^^ gfmul (N i 3) (M 3 j)

/-- The identity matrix. -/
def matrixOne (i j : Fin 4) : Byte := if i = j then 1#8 else 0#8

/-- The word function is the product of the column with the matrix. -/
def MultipliesBy (f : Word → Word) (M : Fin 4 → Fin 4 → Byte) : Prop :=
  ∀ (w : Word) (i : Fin 4), wordByte (f w) i = rowTimes (M i) w

theorem zero_gfmul (x : Byte) : gfmul 0#8 x = 0#8 := (gfmul_comm ..).trans (gfmul_zero x)

theorem rowTimes_xor (c : Fin 4 → Byte) (u w : Word) : rowTimes c (u ^^^ w) = rowTimes c u ^^^ rowTimes c w := by
  simp only [rowTimes, wordByte_xor, gfmul_xor]
  ac_rfl

/-- A row times a column of equal bytes is the XOR of the row times that byte. -/
theorem rowTimes_mkWord_self (c : Fin 4 → Byte) (a : Byte) :
    rowTimes c (mkWord a a a a) = gfmul (c 0 ^^^ c 1 ^^^ c 2 ^^^ c 3) a := by
  simp [rowTimes, xor_gfmul]

theorem wordByte_mkWord_self (a : Byte) (i : Fin 4) : wordByte (mkWord a a a a) i = a := by
  fin_cases i <;> simp

/-- A row of the identity matrix picks a byte of the column. -/
theorem rowTimes_matrixOne (i : Fin 4) (w : Word) : rowTimes (matrixOne i) w = wordByte w i := by
  fin_cases i <;> simp [rowTimes, matrixOne, one_gfmul, zero_gfmul]

namespace MultipliesBy

variable {f g : Word → Word} {M N : Fin 4 → Fin 4 → Byte}

theorem map_xor (hf : MultipliesBy f M) (u w : Word) : f (u ^^^ w) = f u ^^^ f w :=
  word_ext fun i => by rw [wordByte_xor, hf, hf, hf, rowTimes_xor]

theorem map_zero (hf : MultipliesBy f M) : f 0#32 = 0#32 := by
  have h := hf.map_xor 0#32 0#32
  rwa [BitVec.xor_self, BitVec.xor_self] at h

/-- A matrix each of whose rows XORs to 1 leaves a column of equal bytes alone. -/
theorem map_mkWord_self (hf : MultipliesBy f M) (hM : ∀ i, M i 0 ^^^ M i 1 ^^^ M i 2 ^^^ M i 3 = 1#8) (a : Byte) :
    f (mkWord a a a a) = mkWord a a a a :=
  word_ext fun i => by rw [hf, rowTimes_mkWord_self, hM, one_gfmul, wordByte_mkWord_self]

/-- One product after another is the product with the product of the matrices. -/
theorem comp (hg : MultipliesBy g N) (hf : MultipliesBy f M) : MultipliesBy (g ∘ f) (matrixMul N M) := by
  intro w i
  rw [Function.comp_apply, hg]
  simp only [rowTimes, hf _ _, matrixMul, gfmul_xor, xor_gfmul, gfmul_assoc]
  ac_rfl

/-- Two matrices whose product is the identity undo each other. -/
theorem leftInverse (hg : MultipliesBy g N) (hf : MultipliesBy f M) (h : matrixMul N M = matrixOne) :
    Function.LeftInverse g f :=
  fun w => word_ext fun i => by
    have hcomp := hg.comp hf w i
    rwa [h, rowTimes_matrixOne] at hcomp

end MultipliesBy

/-! ### The two matrices (R150, R151) -/

/-- Settles O36: the entries, evaluated. -/
theorem matricesWrittenOut : Obligations.MatricesWrittenOut := by
  unfold Obligations.MatricesWrittenOut
  decide

theorem xor_row_matrixF : ∀ i, matrixF i 0 ^^^ matrixF i 1 ^^^ matrixF i 2 ^^^ matrixF i 3 = 1#8 := by decide

theorem xor_row_matrixI : ∀ i, matrixI i 0 ^^^ matrixI i 1 ^^^ matrixI i 2 ^^^ matrixI i 3 = 1#8 := by decide

theorem matrixMul_matrixI_matrixF : matrixMul matrixI matrixF = matrixOne := funext₂ (by decide)

theorem matrixMul_matrixF_matrixI : matrixMul matrixF matrixI = matrixOne := funext₂ (by decide)

/-! ### The two column functions (R152, R153) -/

/-- The multipliers of R152 are the products with the entries of `MF`, whose coefficient 1 is the identity (without `zero_sub`
the index `0 - i` of the circulant evaluates to a numeral). -/
theorem mixColumn_multipliesBy : MultipliesBy mixColumn matrixF := by
  intro w i
  simp only [mixColumn, mul2_eq_gfmul, mul3_eq_gfmul]
  fin_cases i <;> simp [rowTimes, matrixF, circulant, rowF, one_gfmul, -zero_sub]

/-- The multipliers of R153 are the products with the entries of `MI`. -/
theorem invMixColumn_multipliesBy : MultipliesBy invMixColumn matrixI := by
  intro w i
  simp only [invMixColumn, mul9_eq_gfmul, mul11_eq_gfmul, mul13_eq_gfmul, mul14_eq_gfmul]
  fin_cases i <;> simp [rowTimes, matrixI, circulant, rowI, -zero_sub]

theorem invMixColumn_mixColumn : Function.LeftInverse invMixColumn mixColumn :=
  invMixColumn_multipliesBy.leftInverse mixColumn_multipliesBy matrixMul_matrixI_matrixF

theorem mixColumn_invMixColumn : Function.LeftInverse mixColumn invMixColumn :=
  mixColumn_multipliesBy.leftInverse invMixColumn_multipliesBy matrixMul_matrixF_matrixI

/-- Settles O38: the products of the matrices are the identity, so the column functions undo each other. -/
theorem columnFunctionsAreInverse : Obligations.ColumnFunctionsAreInverse := by
  unfold Obligations.ColumnFunctionsAreInverse
  exact ⟨invMixColumn_mixColumn, mixColumn_invMixColumn, congrFun₂ matrixMul_matrixI_matrixF,
    congrFun₂ matrixMul_matrixF_matrixI⟩

/-- Settles O39: the laws are those of the product with a matrix whose rows XOR to 1; the eight unit columns are evaluated. -/
theorem columnLaws : Obligations.ColumnLaws := by
  unfold Obligations.ColumnLaws
  have hF := mixColumn_multipliesBy
  have hI := invMixColumn_multipliesBy
  refine ⟨hF.map_xor, hI.map_xor, hF.map_zero, hI.map_zero,
    fun a => ⟨hF.map_mkWord_self xor_row_matrixF a, hI.map_mkWord_self xor_row_matrixI a⟩,
    fun i => ⟨xor_row_matrixF i, xor_row_matrixI i⟩, ?_⟩
  decide

/-! ### The commands (R156, R157) -/

/-- The meaning of the two column commands. -/
theorem exec_columnCommand : ∀ p ∈ [(Instr.mixcol, matrixF), (.imixcol, matrixI)],
    ∃ f, MultipliesBy f p.2 ∧ ∀ src s, exec (p.1 src) s = wordCommand f src s := by
  simp only [List.forall_mem_cons]
  exact ⟨⟨mixColumn, mixColumn_multipliesBy, fun _ _ => rfl⟩, ⟨invMixColumn, invMixColumn_multipliesBy, fun _ _ => rfl⟩,
    List.forall_mem_nil _⟩

/-- A row times the low word of a block, by the block's bits (R76). -/
theorem rowTimes_extractLsb' (c : Fin 4 → Byte) (v : Block) :
    rowTimes c (v.extractLsb' 0 32) = gfmul (c 0) (v.extractLsb' 24 8) ^^^ gfmul (c 1) (v.extractLsb' 16 8) ^^^
      gfmul (c 2) (v.extractLsb' 8 8) ^^^ gfmul (c 3) (v.extractLsb' 0 8) := by
  simp [rowTimes, wordByte_extractLsb']

/-- Settles O37: a column command is the word command of the product with its matrix. -/
theorem columnCommandsMultiplyByMatrix : Obligations.ColumnCommandsMultiplyByMatrix := by
  unfold Obligations.ColumnCommandsMultiplyByMatrix
  intro s src p hp
  obtain ⟨f, hf, hexec⟩ := exec_columnCommand p hp
  refine ⟨f (s.wordOperand src), ?_, fun i => ?_⟩
  · rw [hexec]
    exact wordCommand_next f src s
  · rw [hf, State.wordOperand, rowTimes_extractLsb']

end Sys2Proof.Proofs
end

section
/-! PROOFS. The key schedule expander (spec/43_key_schedule.md): a key round taken apart into columns and G into bytes. That a key
round can be undone (R178) and the word recurrence of the store (R175) follow from the columns. -/

namespace Sys2Proof.Proofs

open Sys2Proof.Machine

/-! ### The round constants (R170) -/

/-- Settles O32: the nine doublings are compared one by one, and the rest are values. -/
theorem roundConstantsAreDoublings : Obligations.RoundConstantsAreDoublings := by
  unfold Obligations.RoundConstantsAreDoublings
  refine ⟨rfl, fun r h1 h9 => ?_, by decide⟩
  interval_cases r <;> decide

/-! ### RotWord and G (R171, R172) -/

/-- The byte that leaves at the top of the word comes back at its bottom. -/
theorem rotWord_eq_shifts (w : Word) : rotWord w = (w <<< 8) ||| (w >>> 24) := by
  ext i hi
  simp only [rotWord, mkWord, wordByte, BitVec.getElem_or, BitVec.getElem_shiftLeft, BitVec.getElem_ushiftRight]
  grind

@[simp] theorem rotWord_mkWord (a b c d : Byte) : rotWord (mkWord a b c d) = mkWord b c d a := by
  simp [rotWord]

/-- Substituting the bytes of a word and moving them round commute. -/
theorem rotWord_subWord (w : Word) : rotWord (subWord w) = subWord (rotWord w) := by
  simp [subWord, rotWord]

/-- A round constant stands in the most significant byte (R172). -/
theorem roundConst_shifted (r : Nat) : (roundConst r).setWidth 32 <<< 24 = mkWord (roundConst r) 0#8 0#8 0#8 := by
  ext i hi
  simp only [mkWord, BitVec.getElem_shiftLeft]
  grind

/-- G byte by byte (R172). -/
theorem gWord_eq_mkWord (w : Word) (r : Nat) :
    gWord w r = mkWord (sbox (wordByte w 1) ^^^ roundConst r) (sbox (wordByte w 2)) (sbox (wordByte w 3))
      (sbox (wordByte w 0)) := by
  rw [gWord, roundConst_shifted]
  refine word_ext fun j => ?_
  rw [wordByte_xor]
  fin_cases j <;> simp [subWord, rotWord]

/-! ### The columns of a key round (R173) -/

theorem col_keyRound_zero (p : Block) (r : Nat) : col (keyRound p r) 0 = col p 0 ^^^ gWord (col p 3) r :=
  col_ofCols_0 ..

/-- Each further word of a round key is the word before it XORed into the old word. -/
theorem col_keyRound_succ (p : Block) (r : Nat) {c d : Fin 4} (h : c.val = d.val + 1) :
    col (keyRound p r) c = col p c ^^^ col (keyRound p r) d := by
  match c, d, h with
  | 1, 0, _ => simp [keyRound]
  | 2, 1, _ => simp [keyRound]
  | 3, 2, _ => simp [keyRound]

/-- Settles O28: the bytes of RotWord and G and the columns of a key round, and the rule's values evaluated. -/
theorem keyRoundRule : Obligations.KeyRoundRule := by
  unfold Obligations.KeyRoundRule
  refine ⟨rotWord_mkWord, rotWord_eq_shifts, by decide, by decide, by decide, fun a0 a1 a2 a3 r _ _ => ?_,
    fun w r _ _ => ⟨rfl, by rw [rotWord_subWord, gWord]⟩, by decide, by decide, fun p0 p1 p2 p3 r _ _ => ?_⟩
  · have hg := gWord_eq_mkWord (mkWord a0 a1 a2 a3) r
    simp only [wordByte_mkWord_0, wordByte_mkWord_1, wordByte_mkWord_2, wordByte_mkWord_3] at hg
    exact hg
  · refine ⟨_, _, _, _, (ofCols_col (keyRound (ofCols p0 p1 p2 p3) r)).symm, ?_, ?_, ?_, ?_⟩
    · rw [col_keyRound_zero, col_ofCols_0, col_ofCols_3]
    · rw [col_keyRound_succ _ _ (c := 1) (d := 0) rfl, col_ofCols_1]
    · rw [col_keyRound_succ _ _ (c := 2) (d := 1) rfl, col_ofCols_2]
    · rw [col_keyRound_succ _ _ (c := 3) (d := 2) rfl, col_ofCols_3]

/-! ### Undoing a key round (R178) -/

/-- The last three words of the old round key come from the new words alone, and the third of them gives G and so the first. -/
theorem keyRound_injective {p q : Block} {r : Nat} (h : keyRound p r = keyRound q r) : p = q := by
  have hsucc : ∀ {c d : Fin 4}, c.val = d.val + 1 → col p c = col q c := fun hcd => by
    have hc := col_keyRound_succ p r hcd
    rw [h, col_keyRound_succ q r hcd] at hc
    exact ((BitVec.xor_left_inj _).1 hc).symm
  have h3 : col p 3 = col q 3 := hsucc (d := 2) rfl
  have h0 : col p 0 = col q 0 := by
    have hc := col_keyRound_zero p r
    rw [h, col_keyRound_zero q r, h3] at hc
    exact ((BitVec.xor_left_inj _).1 hc).symm
  refine block_ext_col fun c => ?_
  match c with
  | 0 => exact h0
  | 1 => exact hsucc (d := 0) rfl
  | 2 => exact hsucc (d := 1) rfl
  | 3 => exact h3

theorem expand_injective {k l : Block} {r : Nat} (h : expand k r = expand l r) : k = l := by
  induction r with
  | zero => exact h
  | succ r ih => exact ih (keyRound_injective h)

/-- Settles O26: a key round is undone column by column, and the rounds one by one. -/
theorem keyRoundCanBeUndone : Obligations.KeyRoundCanBeUndone := by
  unfold Obligations.KeyRoundCanBeUndone
  exact ⟨fun _ _ _ => keyRound_injective, fun _ _ _ => expand_injective⟩

/-! ### KEYEXP (R176) -/

/-- A round of KEYEXP writes the four words of round key `r` and so no byte above them. -/
theorem memByte_keyexpRound_above (s : State) {a : Nat} (h : 16 * s.rnd.toNat + 16 ≤ a) :
    (keyexpRound s).memByte a = s.memByte a := by
  simp only [keyexpRound]
  iterate 4 rw [memByte_writeRkWord_outside _ _ (by omega)]

theorem memByte_loadKey_above (s : State) (k : Block) {a : Nat} (h : 16 ≤ a) :
    (s.loadKey k).memByte a = s.memByte a := by
  simp only [State.loadKey]
  iterate 4 rw [memByte_writeRkWord_outside _ _ (by omega)]

/-- The rounds of KEYEXP write no byte above round key 10. -/
theorem memByte_runRounds_keyexp_above (s : State) {a : Nat} (h : 176 ≤ a) :
    (runRounds keyexpRound keyexpOrder s).memByte a = s.memByte a := by
  refine runRounds_keeps (P := fun u => u.memByte a = s.memByte a) (fun r hr u hu => ?_) rfl
  have hle : r.toNat ≤ 10 := (by decide : ∀ r ∈ keyexpOrder, r.toNat ≤ 10) r hr
  exact (memByte_keyexpRound_above { u with rnd := r } (by show 16 * r.toNat + 16 ≤ a; omega)).trans hu

theorem memByte_completed (s : State) (a : Nat) : { s.complete with kv := true }.memByte a = s.memByte a := rfl

/-- KEYEXP leaves alone what lies above the store. -/
theorem memByte_exec_keyexp_above {s t : State} {src : Src} (ht : exec (.keyexp src) s = .next t) {a : Nat}
    (h : 176 ≤ a) : t.memByte a = s.memByte a := by
  rw [Host.Outcome.next.inj (ht.symm.trans (exec_keyexp src s)), memByte_completed,
    memByte_runRounds_keyexp_above _ h, memByte_loadKey_above _ _ (by omega), s.begin_memByte]

/-- Settles O24: the store after the loop is expanded, and its 44 words are all of it. -/
theorem keyexpStoresTheSchedule : Obligations.KeyexpStoresTheSchedule := by
  unfold Obligations.KeyexpStoresTheSchedule
  intro s src
  obtain ⟨t, ht, ⟨hlisted, hkeys⟩, hframe, hwf⟩ := execKeyexp_expands src s
  exact ⟨t, ht, hkeys, (full_iff_wordsListed t).2 hlisted, hframe, fun _ => memByte_exec_keyexp_above ht, hwf⟩

/-! ### The word recurrence (R175) -/

/-- Word `4r + c` of the store is column `c` of round key `r` (R53, R54). -/
theorem rkWord_eq_col (s : State) (r : Nat) (c : Fin 4) : s.rkWord (4 * r + c.val) = col (s.rkey r) c := by
  rw [State.rkey_eq_ofCols]
  match c with
  | 0 => exact (col_ofCols_0 ..).symm
  | 1 => exact (col_ofCols_1 ..).symm
  | 2 => exact (col_ofCols_2 ..).symm
  | 3 => exact (col_ofCols_3 ..).symm

section
variable {k : Block} {n r : Nat} {t : State}

theorem Expanded.rkey_succ (h : Expanded k n t) (hr : r < n) : t.rkey (r + 1) = keyRound (t.rkey r) (r + 1) := by
  rw [h.keys (r + 1) hr, h.keys r (Nat.le_of_lt hr), expand]

/-- The first word of a round key. -/
theorem Expanded.rkWord_first (h : Expanded k n t) (hr : r < n) :
    t.rkWord (4 * (r + 1)) = t.rkWord (4 * r) ^^^ gWord (t.rkWord (4 * r + 3)) (r + 1) := calc
  _ = col (t.rkey (r + 1)) 0 := rkWord_eq_col t (r + 1) 0
  _ = col (t.rkey r) 0 ^^^ gWord (col (t.rkey r) 3) (r + 1) := by rw [h.rkey_succ hr, col_keyRound_zero]
  _ = _ := by rw [← rkWord_eq_col, ← rkWord_eq_col]; rfl

/-- Each further word of a round key. -/
theorem Expanded.rkWord_further (h : Expanded k n t) (hr : r < n) {c d : Fin 4} (hcd : c.val = d.val + 1) :
    t.rkWord (4 * (r + 1) + c.val) = t.rkWord (4 * r + c.val) ^^^ t.rkWord (4 * (r + 1) + d.val) := by
  simp only [rkWord_eq_col, h.rkey_succ hr]
  exact col_keyRound_succ _ _ hcd

end

/-- Settles O25: word `i` is the first or a further word of round key `i div 4`. -/
theorem scheduleWordRecurrence : Obligations.ScheduleWordRecurrence := by
  unfold Obligations.ScheduleWordRecurrence
  intro s t src ht
  obtain ⟨u, hu, hx, -⟩ := execKeyexp_expands src s
  obtain rfl : t = u := Host.Outcome.next.inj (ht.symm.trans hu)
  have hkey : ∀ c : Fin 4, t.rkWord (4 * 0 + c.val) = col (s.operand src) c := fun c => by
    rw [rkWord_eq_col, hx.keys 0 (by omega), expand]
  refine ⟨hkey 0, hkey 1, hkey 2, hkey 3, fun i h4 h43 => ?_⟩
  obtain ⟨r, hr⟩ : ∃ r, i / 4 = r + 1 := ⟨i / 4 - 1, by omega⟩
  split
  · next h0 =>
    have hfirst := hx.rkWord_first (r := r) (by omega)
    rw [gWord_eq_mkWord] at hfirst
    rw [hr, show i - 4 = 4 * r by omega, show i - 1 = 4 * r + 3 by omega, show i = 4 * (r + 1) by omega]
    exact hfirst
  · next h0 =>
    obtain ⟨d, hd⟩ : ∃ d, i % 4 = d + 1 := ⟨i % 4 - 1, by omega⟩
    have hfurther := hx.rkWord_further (r := r) (c := ⟨d + 1, by omega⟩) (d := ⟨d, by omega⟩) (by omega) rfl
    rw [show i - 4 = 4 * r + (d + 1) by omega, show i - 1 = 4 * (r + 1) + d by omega,
      show i = 4 * (r + 1) + (d + 1) by omega]
    exact hfurther

/-! ### RDRK (R177) -/

theorem exec_rdrk (r : Nat) (s : State) :
    exec (.rdrk r) s = checked (indexKeyFault r s) s fun s => s.finish (s.rkey r) := rfl

/-- Settles O27: a legal index and a key leave no fault, and the result is the round key, word by word. -/
theorem rdrkReadsTheRoundKey : Obligations.RdrkReadsTheRoundKey := by
  unfold Obligations.RdrkReadsTheRoundKey
  intro s r hr hkv
  rw [exec_rdrk, indexKeyFault_low s hr, keyFault_keyed hkv, checked_none, State.rkey_eq_ofCols]
  rfl

end Sys2Proof.Proofs
end

section
/-! PROOFS. The round transforms (spec/44_round_transform.md). A row layer moves the elements of the state array inside their
rows, a byte layer maps every byte and a column layer every column; what R197 and R198 say of the layers is said here of any
layer of its kind. -/

namespace Sys2Proof.Proofs

open Sys2Proof.Machine

/-! ### The elements of the state array (R6) -/

/-- Blocks with the same sixteen elements are equal: byte `i` is element `(i mod 4, i div 4)`. -/
theorem block_ext_elem {u v : Block} (h : ∀ r c, stateElem u r c = stateElem v r c) : u = v := by
  refine block_ext fun i => ?_
  have hi : i.val = i.val % 4 + 4 * (i.val / 4) := by omega
  have helem := h ⟨i.val % 4, by omega⟩ ⟨i.val / 4, by omega⟩
  rwa [stateElem_eq_blockByte u hi, stateElem_eq_blockByte v hi] at helem

theorem stateElem_xor (u v : Block) (r c : Fin 4) : stateElem (u ^^^ v) r c = stateElem u r c ^^^ stateElem v r c :=
  blockByte_xor ..

/-! ### The three kinds of layers -/

/-- Element `(r, c)` of the result is the element at row `r`, column `σ r c` of the block. -/
def MovesElements (T : Block → Block) (σ : Fin 4 → Fin 4 → Fin 4) : Prop :=
  ∀ (v : Block) (r c : Fin 4), stateElem (T v) r c = stateElem v r (σ r c)

/-- Each byte of the result is `f` of the byte in its place. -/
def MapsBytes (T : Block → Block) (f : Byte → Byte) : Prop :=
  ∀ (v : Block) (i : Fin 16), blockByte (T v) i = f (blockByte v i)

/-- Each column of the result is `f` of the column in its place. -/
def MapsColumns (T : Block → Block) (f : Word → Word) : Prop :=
  ∀ (v : Block) (c : Fin 4), col (T v) c = f (col v c)

/-- A linear map of blocks maps 0 to 0. -/
theorem map_zero_of_map_xor {T : Block → Block} (h : ∀ u v, T (u ^^^ v) = T u ^^^ T v) : T 0#128 = 0#128 := by
  have h0 := h 0#128 0#128
  rwa [BitVec.xor_self, BitVec.xor_self] at h0

section
variable {S T : Block → Block} {σ τ : Fin 4 → Fin 4 → Fin 4} {b : Byte → Byte} {f g : Word → Word}

theorem MovesElements.leftInverse (hS : MovesElements S σ) (hT : MovesElements T τ) (h : ∀ r c, τ r (σ r c) = c) :
    Function.LeftInverse S T :=
  fun v => block_ext_elem fun r c => by rw [hS, hT, h]

theorem MovesElements.map_xor (hT : MovesElements T τ) (u v : Block) : T (u ^^^ v) = T u ^^^ T v :=
  block_ext_elem fun r c => by rw [stateElem_xor, hT, hT, hT, stateElem_xor]

theorem MapsBytes.stateElem (hS : MapsBytes S b) (v : Block) (r c : Fin 4) : stateElem (S v) r c = b (stateElem v r c) :=
  hS ..

/-- It does not matter whether an element is mapped before it is moved or after (R198). -/
theorem MapsBytes.comm (hS : MapsBytes S b) (hT : MovesElements T τ) (v : Block) : S (T v) = T (S v) :=
  block_ext_elem fun r c => by rw [hS.stateElem, hT, hT, hS.stateElem]

theorem MapsColumns.leftInverse (hS : MapsColumns S g) (hT : MapsColumns T f) (h : Function.LeftInverse g f) :
    Function.LeftInverse S T :=
  fun v => block_ext_col fun c => by rw [hS, hT, h]

theorem MapsColumns.map_xor (hT : MapsColumns T f) (hf : ∀ u w, f (u ^^^ w) = f u ^^^ f w) (u v : Block) :
    T (u ^^^ v) = T u ^^^ T v :=
  block_ext_col fun c => by rw [col_xor, hT, hT, hT, col_xor, hf]

end

/-! ### The six layers (R191 to R196) -/

/-- Sixteen bytes, byte `i` from the number `n i` modulo 16, so that the byte of element `(r, c)` is that of `(r, σ r c)`. -/
theorem movesElements_mkBlock {n : Nat → Nat} {σ : Fin 4 → Fin 4 → Fin 4}
    (h : ∀ r c : Fin 4, n (r.val + 4 * c.val) % 16 = r.val + 4 * (σ r c).val) :
    MovesElements (fun v => mkBlock fun i => blockByte v (Fin.ofNat 16 (n i.val))) σ := by
  intro v r c
  rw [stateElem, blockByte_mkBlock]
  exact congrArg (blockByte v) (Fin.ext (h r c))

/-- The two forms of R191 agree. -/
theorem shiftRows_movesElements : MovesElements shiftRows fun r c => c + r :=
  movesElements_mkBlock (n := fun i => i + 4 * (i % 4)) fun r c => by simp only [Fin.val_add]; omega

/-- The two forms of R196 agree. -/
theorem invShiftRows_movesElements : MovesElements invShiftRows fun r c => c - r :=
  movesElements_mkBlock (n := fun i => i + 16 - 4 * (i % 4)) fun r c => by simp only [Fin.val_sub]; omega

/-- Sixteen bytes, each `f` of the one in its place. -/
theorem mapsBytes_mkBlock (f : Byte → Byte) : MapsBytes (fun v => mkBlock fun i => f (blockByte v i)) f :=
  fun v => blockByte_mkBlock fun i => f (blockByte v i)

theorem subBytes_mapsBytes : MapsBytes subBytes sbox := mapsBytes_mkBlock sbox

theorem invSubBytes_mapsBytes : MapsBytes invSubBytes invSbox := mapsBytes_mkBlock invSbox

/-- Four columns side by side, each `f` of the one in its place. -/
theorem mapsColumns_ofCols (f : Word → Word) :
    MapsColumns (fun v => ofCols (f (col v 0)) (f (col v 1)) (f (col v 2)) (f (col v 3))) f
  | _, 0 => col_ofCols_0 ..
  | _, 1 => col_ofCols_1 ..
  | _, 2 => col_ofCols_2 ..
  | _, 3 => col_ofCols_3 ..

theorem mixColumns_mapsColumns : MapsColumns mixColumns mixColumn := mapsColumns_ofCols mixColumn

theorem invMixColumns_mapsColumns : MapsColumns invMixColumns invMixColumn := mapsColumns_ofCols invMixColumn

/-- Settles O40: the elements as moved by the row layer, the bytes as the definition of `shiftRows` numbers them, and the
rule's example evaluated. -/
theorem shiftRowsRule : Obligations.ShiftRowsRule := by
  unfold Obligations.ShiftRowsRule
  refine ⟨shiftRows_movesElements, fun v i j hj => ?_, by decide⟩
  rw [shiftRows, blockByte_mkBlock]
  exact congrArg (blockByte v) (Fin.ext hj.symm)

/-- Settles O43: moving to the right undoes moving to the left, the byte and column functions undo each other, and a round key
cancels itself. -/
theorem transformInversePairs : Obligations.TransformInversePairs := by
  unfold Obligations.TransformInversePairs
  have hS := shiftRows_movesElements
  have hI := invShiftRows_movesElements
  have hM := mixColumns_mapsColumns
  have hN := invMixColumns_mapsColumns
  refine ⟨hI.leftInverse hS fun r c => sub_add_cancel c r, hS.leftInverse hI fun r c => add_sub_cancel_right c r,
    invSubBlock_subBlock, subBlock_invSubBlock, hN.leftInverse hM invMixColumn_mixColumn,
    hM.leftInverse hN mixColumn_invMixColumn, fun v k => ?_⟩
  rw [addRoundKey, addRoundKey, BitVec.xor_assoc, BitVec.xor_self, BitVec.xor_zero]

/-- The row layers and the column layers are linear over XOR (R198). -/
theorem linearLayer_map_xor : ∀ T ∈ [shiftRows, invShiftRows, mixColumns, invMixColumns],
    ∀ u v : Block, T (u ^^^ v) = T u ^^^ T v := by
  simp only [List.forall_mem_cons]
  exact ⟨shiftRows_movesElements.map_xor, invShiftRows_movesElements.map_xor,
    mixColumns_mapsColumns.map_xor mixColumn_multipliesBy.map_xor,
    invMixColumns_mapsColumns.map_xor invMixColumn_multipliesBy.map_xor, List.forall_mem_nil _⟩

/-- Settles O44: the byte layers map elements and the row layers move them, and a linear layer maps 0 to 0; `SubBytes(0)` is
evaluated. -/
theorem layersCommuteAndAreLinear : Obligations.LayersCommuteAndAreLinear := by
  unfold Obligations.LayersCommuteAndAreLinear
  refine ⟨subBytes_mapsBytes.comm shiftRows_movesElements, invSubBytes_mapsBytes.comm invShiftRows_movesElements,
    fun T hT => ?_, by decide⟩
  have hxor := linearLayer_map_xor T hT
  exact ⟨hxor, map_zero_of_map_xor hxor⟩

/-! ### The commands (R200 to R206) -/

/-- Settles O41: each is the block command of its layer. -/
theorem blockTransformCommands : Obligations.BlockTransformCommands := by
  unfold Obligations.BlockTransformCommands
  intro s src
  exact ⟨_, _, _, _, _, _,
    blockCommand_next subBytes src s, subBytes_mapsBytes _,
    blockCommand_next invSubBytes src s, invSubBytes_mapsBytes _,
    blockCommand_next shiftRows src s, shiftRows_movesElements _,
    blockCommand_next invShiftRows src s, invShiftRows_movesElements _,
    blockCommand_next mixColumns src s, mixColumns_mapsColumns _,
    blockCommand_next invMixColumns src s, invMixColumns_mapsColumns _⟩

theorem exec_ark (src : Src) (r : Nat) (s : State) : exec (.ark src r) s =
    checked (indexKeyFault r s) s fun s => s.finish (addRoundKey (s.operand src) (s.rkey r)) := rfl

/-- Settles O42: a legal index and a key leave no fault, and the result is the operand XOR the round key, word by word. -/
theorem arkAddsTheRoundKey : Obligations.ArkAddsTheRoundKey := by
  unfold Obligations.ArkAddsTheRoundKey
  intro s src r hr hkv
  rw [exec_ark, indexKeyFault_low s hr, keyFault_keyed hkv, checked_none, State.rkey_eq_ofCols]
  rfl

end Sys2Proof.Proofs
end

section
/-! PROOFS. The round transform sequencer (spec/45_cipher_sequencer.md): the steps of the two directions undo each other, number
by number (R226), the loops of ENC and DEC pass through the states of the cipher (R229), and so do the layer commands (R230). -/

namespace Sys2Proof.Proofs

open Sys2Proof.Machine

/-! ### The steps (R220, R222) -/

section
variable {K : Schedule} {r : Nat}

theorem encStep_of_middle (h1 : 1 ≤ r) (h9 : r ≤ 9) (v : Block) :
    encStep K r v = addRoundKey (mixColumns (shiftRows (subBytes v))) (K r) := by
  rw [encStep, if_neg (by omega), if_neg (by omega)]

theorem decStep_of_middle (h1 : 1 ≤ r) (h9 : r ≤ 9) (v : Block) :
    decStep K r v = invSubBytes (invShiftRows (invMixColumns (addRoundKey v (K r)))) := by
  rw [decStep, if_neg (by omega), if_neg (by omega)]

end

/-- The decryption step at a number undoes the encryption step at that number, layer by layer (R197). -/
theorem decStep_encStep (K : Schedule) (r : Nat) (v : Block) : decStep K r (encStep K r v) = v := by
  obtain ⟨hshift, -, hsub, -, hmix, -, hkey⟩ := transformInversePairs
  unfold decStep encStep
  split_ifs
  · exact hkey ..
  · rw [hkey, hshift, hsub]
  · rw [hkey, hmix, hshift, hsub]

/-- The encryption step at a number undoes the decryption step at that number, layer by layer (R197). -/
theorem encStep_decStep (K : Schedule) (r : Nat) (v : Block) : encStep K r (decStep K r v) = v := by
  obtain ⟨-, hshift, -, hsub, -, hmix, hkey⟩ := transformInversePairs
  unfold decStep encStep
  split_ifs
  · exact hkey ..
  · rw [hsub, hshift, hkey]
  · rw [hsub, hshift, hmix, hkey]

/-! ### Each direction retraces the other (R226) -/

/-- Decrypting `e(10)`, the state `d(10 - n)` is `e(9 - n)`. -/
theorem decState_encrypt (K : Schedule) (p : Block) {n m : Nat} (h : n + m = 9) :
    decState K (encrypt p K) n = encState K p m := by
  induction n generalizing m with
  | zero =>
    obtain rfl : m = 9 := by omega
    exact decStep_encStep K 10 _
  | succ n ih =>
    rw [decState, ih (m := m + 1) (by omega), show 9 - n = m + 1 by omega]
    exact decStep_encStep K (m + 1) _

/-- Encrypting the result of a decryption, the state `e(n)` is `d(n + 1)`. -/
theorem encState_decrypt (K : Schedule) (c : Block) {n m : Nat} (h : n + m = 9) :
    encState K (decrypt c K) n = decState K c m := by
  induction n generalizing m with
  | zero =>
    obtain rfl : m = 9 := by omega
    exact encStep_decStep K 0 _
  | succ n ih =>
    rw [encState, ih (m := m + 1) (by omega), decState, show 9 - m = n + 1 by omega]
    exact encStep_decStep K (n + 1) _

theorem decrypt_encrypt (p : Block) (K : Schedule) : decrypt (encrypt p K) K = p := calc
  _ = decStep K 0 (decState K (encrypt p K) 9) := rfl
  _ = decStep K 0 (encStep K 0 p) := by rw [decState_encrypt K p (m := 0) rfl, encState]
  _ = p := decStep_encStep K 0 p

theorem encrypt_decrypt (c : Block) (K : Schedule) : encrypt (decrypt c K) K = c := calc
  _ = encStep K 10 (encState K (decrypt c K) 9) := rfl
  _ = encStep K 10 (decStep K 10 c) := by rw [encState_decrypt K c (m := 0) rfl, decState]
  _ = c := encStep_decStep K 10 c

/-- Settles O47: the states are retraced one by one, and the last step takes round key 0 off `e(0)`. -/
theorem decryptionRetracesEncryption : Obligations.DecryptionRetracesEncryption := by
  unfold Obligations.DecryptionRetracesEncryption
  intro K p
  have hlast : decState K (encrypt p K) 10 = encState K p 0 ^^^ K 0 := calc
    _ = decStep K 0 (decState K (encrypt p K) 9) := rfl
    _ = decStep K 0 (encState K p 0) := by rw [decState_encrypt K p (m := 0) rfl]
    _ = encState K p 0 ^^^ K 0 := rfl
  exact ⟨fun r h1 h10 => decState_encrypt K p (by omega), hlast, hlast.symm.trans (decrypt_encrypt p K)⟩

/-- Settles O48: the round trips hold for every schedule, so for an expanded one. -/
theorem cipherRoundTrip : Obligations.CipherRoundTrip := by
  unfold Obligations.CipherRoundTrip
  exact ⟨fun k p => decrypt_encrypt p (expand k), decrypt_encrypt, encrypt_decrypt⟩

/-! ### The loops of ENC and DEC (R228, R229) -/

theorem runRounds_concat (work : State → State) (l : List (BitVec 4)) (r : BitVec 4) (s : State) :
    runRounds work (l ++ [r]) s = work { runRounds work l s with rnd := r } :=
  runRounds_append work l [r] s

theorem encOrder_take_succ : ∀ n, n < 10 →
    encOrder.take (n + 2) = encOrder.take (n + 1) ++ [BitVec.ofNat 4 (n + 1)] := by decide

theorem decOrder_take_succ : ∀ n, n < 10 →
    decOrder.take (n + 2) = decOrder.take (n + 1) ++ [BitVec.ofNat 4 (9 - n)] := by decide

theorem toNat_ofNat_of_le_ten {r : Nat} (h : r ≤ 10) : (BitVec.ofNat 4 r).toNat = r :=
  (BitVec.toNat_ofNat ..).trans (Nat.mod_eq_of_lt (by omega))

/-- After the step of ENC at `RND = n` the accumulator holds `e(n)`. -/
theorem runRounds_encRound (s : State) {n : Nat} (hn : n ≤ 10) :
    runRounds encRound (encOrder.take (n + 1)) s =
      { s with rnd := BitVec.ofNat 4 n, acc := encState s.rkey s.acc n } := by
  induction n with
  | zero => rfl
  | succ n ih =>
    rw [encOrder_take_succ n hn, runRounds_concat, ih (by omega), encRound, encState]
    simp only [toNat_ofNat_of_le_ten hn]
    rfl

/-- After the step of DEC at `RND = 10 - n` the accumulator holds `d(10 - n)`. -/
theorem runRounds_decRound (s : State) {n : Nat} (hn : n ≤ 10) :
    runRounds decRound (decOrder.take (n + 1)) s =
      { s with rnd := BitVec.ofNat 4 (10 - n), acc := decState s.rkey s.acc n } := by
  induction n with
  | zero => rfl
  | succ n ih =>
    rw [decOrder_take_succ n hn, runRounds_concat, ih (by omega), decRound, decState,
      show 10 - (n + 1) = 9 - n by omega]
    simp only [toNat_ofNat_of_le_ten (show 9 - n ≤ 10 by omega)]
    rfl

/-- Settles O46: the orders are lists of ten or eleven values, and each loop is followed round by round. -/
theorem sequencerStates : Obligations.SequencerStates := by
  unfold Obligations.SequencerStates
  exact ⟨by decide, fun s _ => runRounds_encRound s, fun s _ => runRounds_decRound s,
    fun s k _ r hn hr => (expanded_runRounds s k hn).keys r hr⟩

/-! ### ENC and DEC (R224, R227) -/

theorem exec_enc (src : Src) (s : State) : exec (.enc src) s = checked (keyFault s) s fun s =>
    (runRounds encRound encOrder { s.begin with acc := s.operand src }).complete := rfl

theorem exec_dec (src : Src) (s : State) : exec (.dec src) s = checked (keyFault s) s fun s =>
    (runRounds decRound decOrder { s.begin with acc := s.operand src }).complete := rfl

section
variable {s : State} (hkv : s.kv = true)
include hkv

theorem exec_enc_keyed (src : Src) : exec (.enc src) s = .next (s.finish (encrypt (s.operand src) s.rkey)) := by
  have hrun := runRounds_encRound { s.begin with acc := s.operand src } (Nat.le_refl 10)
  rw [exec_enc, keyFault_keyed hkv, checked_none, show encOrder = encOrder.take 11 from rfl, hrun]
  rfl

theorem exec_dec_keyed (src : Src) : exec (.dec src) s = .next (s.finish (decrypt (s.operand src) s.rkey)) := by
  have hrun := runRounds_decRound { s.begin with acc := s.operand src } (Nat.le_refl 10)
  rw [exec_dec, keyFault_keyed hkv, checked_none, show decOrder = decOrder.take 11 from rfl, hrun]
  rfl

/-- ENC of the accumulator, after a command that left `v` in it. -/
theorem exec_enc_acc (v : Block) : exec (.enc .acc) (s.finish v) = .next (s.finish (encrypt v s.rkey)) :=
  exec_enc_keyed (s := s.finish v) hkv .acc

/-- DEC of the accumulator, after a command that left `v` in it. -/
theorem exec_dec_acc (v : Block) : exec (.dec .acc) (s.finish v) = .next (s.finish (decrypt v s.rkey)) :=
  exec_dec_keyed (s := s.finish v) hkv .acc

end

/-- Settles O45: with a key there is no fault, and the loop ends in the last state of the cipher. -/
theorem encAndDecResults : Obligations.EncAndDecResults := by
  unfold Obligations.EncAndDecResults
  exact fun s src hkv => ⟨exec_enc_keyed hkv src, exec_dec_keyed hkv src⟩

/-- Settles O49: neither ENC nor DEC touches the store, so the second runs under the schedule of the first, and KEYEXP sets
`KV`. -/
theorem encThenDecRestoresTheBlock : Obligations.EncThenDecRestoresTheBlock := by
  unfold Obligations.EncThenDecRestoresTheBlock
  intro s key
  obtain ⟨k, hk, -, hframe, -⟩ := execKeyexp_expands key s
  refine ⟨k, hk, fun u src hkv => ⟨_, _, exec_enc_keyed hkv src, ?_, rfl⟩,
    fun u src hkv => ⟨_, _, exec_dec_keyed hkv src, ?_, rfl⟩, by rw [hframe]⟩
  · rw [exec_dec_acc hkv, decrypt_encrypt]
    rfl
  · rw [exec_enc_acc hkv, encrypt_decrypt]
    rfl

/-! ### The layer commands (R230) -/

/-- Commands that complete are followed by the rest. -/
theorem runCommands_append {is js : List Instr} {s t : State} (h : runCommands is s = .next t) :
    runCommands (is ++ js) s = runCommands js t := by
  induction is generalizing s with
  | nil => cases h; rfl
  | cons i is ih =>
    obtain ⟨u, hu⟩ := exec_next i s
    rw [runCommands, hu] at h
    rw [List.cons_append, runCommands, hu]
    exact ih h

/-- Groups of commands that each put a function of `ACC` in `ACC` do so one after another. -/
theorem runCommands_flatMap {g : Nat → List Instr} {f : Nat → Block → Block} {s : State} {l : List Nat}
    (h : ∀ r ∈ l, ∀ v, runCommands (g r) (s.finish v) = .next (s.finish (f r v))) (v : Block) :
    runCommands (l.flatMap g) (s.finish v) = .next (s.finish (l.foldl (fun u r => f r u) v)) := by
  induction l generalizing v with
  | nil => rfl
  | cons r l ih =>
    obtain ⟨hr, hl⟩ := List.forall_mem_cons.1 h
    rw [List.flatMap_cons, runCommands_append (hr v), ih hl, List.foldl_cons]

/-- The commands of round `r` of ENC, from 1 to 9. -/
def encLayers (r : Nat) : List Instr := [.subbytes .acc, .shiftrows .acc, .mixcols .acc, .ark .acc r]

/-- The commands of round `r` of DEC, from 9 to 1. -/
def decLayers (r : Nat) : List Instr := [.ark .acc r, .imixcols .acc, .ishiftrows .acc, .isubbytes .acc]

/-- The 40 commands R230 lists for ENC. -/
def encCommands (src : Src) : List Instr :=
  [Instr.ark src 0] ++ [1, 2, 3, 4, 5, 6, 7, 8, 9].flatMap encLayers ++
    [Instr.subbytes .acc, .shiftrows .acc, .ark .acc 10]

/-- The 40 commands R230 lists for DEC. -/
def decCommands (src : Src) : List Instr :=
  [Instr.ark src 10, .ishiftrows .acc, .isubbytes .acc] ++ [9, 8, 7, 6, 5, 4, 3, 2, 1].flatMap decLayers ++
    [Instr.ark .acc 0]

section
variable {s : State} (hkv : s.kv = true)
include hkv

/-- ARK with a legal index adds its round key, and the commands after it go on from there. -/
theorem runCommands_ark (src : Src) {r : Nat} (hr : r ≤ 10) (is : List Instr) :
    runCommands (.ark src r :: is) s = runCommands is (s.finish (addRoundKey (s.operand src) (s.rkey r))) := by
  rw [runCommands, exec_ark, indexKeyFault_low s hr, keyFault_keyed hkv, checked_none]

/-- ARK of the accumulator, after a command that left `v` in it. -/
theorem runCommands_ark_acc (v : Block) {r : Nat} (hr : r ≤ 10) (is : List Instr) :
    runCommands (.ark .acc r :: is) (s.finish v) = runCommands is (s.finish (addRoundKey v (s.rkey r))) :=
  runCommands_ark (s := s.finish v) hkv .acc hr is

theorem runCommands_encLayers {r : Nat} (h1 : 1 ≤ r) (h9 : r ≤ 9) (v : Block) :
    runCommands (encLayers r) (s.finish v) = .next (s.finish (encStep s.rkey r v)) := calc
  _ = runCommands [.ark .acc r] (s.finish (mixColumns (shiftRows (subBytes v)))) := rfl
  _ = .next (s.finish (encStep s.rkey r v)) := by
    rw [runCommands_ark_acc hkv _ (by omega), encStep_of_middle h1 h9]; rfl

theorem runCommands_decLayers {r : Nat} (h1 : 1 ≤ r) (h9 : r ≤ 9) (v : Block) :
    runCommands (decLayers r) (s.finish v) = .next (s.finish (decStep s.rkey r v)) := by
  rw [decLayers, runCommands_ark_acc hkv v (by omega), decStep_of_middle h1 h9]
  rfl

/-- The commands for ENC: the step at 0, the nine middle rounds, the step at 10. -/
theorem runCommands_encCommands (src : Src) :
    runCommands (encCommands src) s = .next (s.finish (encrypt (s.operand src) s.rkey)) := by
  have hfirst : runCommands [.ark src 0] s = .next (s.finish (encStep s.rkey 0 (s.operand src))) :=
    runCommands_ark hkv src (by omega) []
  have hrange : ∀ r ∈ [1, 2, 3, 4, 5, 6, 7, 8, 9], 1 ≤ r ∧ r ≤ 9 := by decide
  have hmiddle := runCommands_flatMap fun r hr => runCommands_encLayers hkv (hrange r hr).1 (hrange r hr).2
  have hlast (v : Block) : runCommands [.subbytes .acc, .shiftrows .acc, .ark .acc 10] (s.finish v) =
      .next (s.finish (encStep s.rkey 10 v)) :=
    runCommands_ark_acc hkv (shiftRows (subBytes v)) (Nat.le_refl 10) []
  rw [encCommands, List.append_assoc, runCommands_append hfirst, runCommands_append (hmiddle _), hlast]
  rfl

/-- The commands for DEC: the step at 10, the nine middle rounds, the step at 0. -/
theorem runCommands_decCommands (src : Src) :
    runCommands (decCommands src) s = .next (s.finish (decrypt (s.operand src) s.rkey)) := by
  have hfirst : runCommands [.ark src 10, .ishiftrows .acc, .isubbytes .acc] s =
      .next (s.finish (decStep s.rkey 10 (s.operand src))) :=
    runCommands_ark hkv src (Nat.le_refl 10) [.ishiftrows .acc, .isubbytes .acc]
  have hrange : ∀ r ∈ [9, 8, 7, 6, 5, 4, 3, 2, 1], 1 ≤ r ∧ r ≤ 9 := by decide
  have hmiddle := runCommands_flatMap fun r hr => runCommands_decLayers hkv (hrange r hr).1 (hrange r hr).2
  have hlast (v : Block) : runCommands [.ark .acc 0] (s.finish v) = .next (s.finish (decStep s.rkey 0 v)) :=
    runCommands_ark_acc hkv v (by omega) []
  rw [decCommands, List.append_assoc, runCommands_append hfirst, runCommands_append (hmiddle _), hlast]
  rfl

end

/-- Settles O50: the layer commands and the loop both end in the last state of the cipher. -/
theorem layerCommandsReproduceEncAndDec : Obligations.LayerCommandsReproduceEncAndDec := by
  unfold Obligations.LayerCommandsReproduceEncAndDec
  exact fun s src hkv => ⟨(runCommands_encCommands hkv src).trans (exec_enc_keyed hkv src).symm,
    (runCommands_decCommands hkv src).trans (exec_dec_keyed hkv src).symm⟩

end Sys2Proof.Proofs
end

section
/-! PROOFS. The faults (spec/60_exceptions.md R250 to R257): which commands take which fault and in what order, the locked state,
and what a command that faults and one that completes leave unchanged. -/

namespace Sys2Proof.Proofs

open Sys2Proof.Machine

/-! ### The fault of a command (R252, R253) -/

theorem keyFault_eq_some_iff {s : State} {c : Cause} : keyFault s = some c ↔ c = .noKey ∧ s.kv = false := by
  cases hkv : s.kv with
  | true => simp [keyFault_keyed hkv]
  | false => simp [keyFault_unkeyed hkv, eq_comm]

/-- The index is tested before the key. -/
theorem indexKeyFault_eq_some_iff {r : Nat} {s : State} {c : Cause} :
    indexKeyFault r s = some c ↔ (c = .ridxRange ∧ 10 < r) ∨ (c = .noKey ∧ s.kv = false ∧ r ≤ 10) := by
  by_cases hr : 10 < r
  · simp [indexKeyFault_high s hr, hr, Nat.not_le_of_lt hr, eq_comm (a := Cause.ridxRange)]
  · have hle : r ≤ 10 := Nat.le_of_not_lt hr
    simp [indexKeyFault_low s hle, keyFault_eq_some_iff, hr, hle]

/-- The commands that fault: RDRK and ARK on their index and then on `KV`, ENC and DEC on `KV` alone. -/
theorem faultOf_eq_some_iff {i : Instr} {s : State} {c : Cause} :
    faultOf i s = some c ↔
      (c = .ridxRange ∧ ∃ r, 10 < r ∧ (i = .rdrk r ∨ ∃ src, i = .ark src r)) ∨
      (c = .noKey ∧ s.kv = false ∧
        ((∃ r, r ≤ 10 ∧ (i = .rdrk r ∨ ∃ src, i = .ark src r)) ∨ ∃ src, i = .enc src ∨ i = .dec src)) := by
  cases i with
  | rdrk r => simp [faultOf, indexKeyFault_eq_some_iff]
  | ark src r => simp [faultOf, indexKeyFault_eq_some_iff]
  | enc src => simp [faultOf, keyFault_eq_some_iff]
  | dec src => simp [faultOf, keyFault_eq_some_iff]
  | _ => simp [faultOf]

/-- Settles O14: the fault of each of the four commands, in the state the clause speaks of. -/
theorem indexAndKeyFaults : Obligations.IndexAndKeyFaults := by
  unfold Obligations.IndexAndKeyFaults
  have hlow {s : State} {r : Nat} (hr : r ≤ 10) (hkv : s.kv = false) : indexKeyFault r s = some .noKey :=
    (indexKeyFault_low s hr).trans (keyFault_unkeyed hkv)
  exact ⟨fun s r hr => exec_of_fault (i := .rdrk r) (indexKeyFault_high s hr),
    fun s src r hr => exec_of_fault (i := .ark src r) (indexKeyFault_high s hr),
    fun _ r hr hkv => exec_of_fault (i := .rdrk r) (hlow hr hkv),
    fun _ src r hr hkv => exec_of_fault (i := .ark src r) (hlow hr hkv),
    fun _ src hkv => exec_of_fault (i := .enc src) (keyFault_unkeyed hkv),
    fun _ src hkv => exec_of_fault (i := .dec src) (keyFault_unkeyed hkv)⟩

/-! ### What a command leaves unchanged (R256) -/

/-- Settles O15: the three ways a command ends, and the addresses KEYEXP writes. -/
theorem frameOfEveryCommand : Obligations.FrameOfEveryCommand := by
  unfold Obligations.FrameOfEveryCommand
  intro i s t ht
  rcases exec_cases i s with ⟨c, hc, he⟩ | ⟨hn, ⟨src, rfl⟩, m, he⟩ | ⟨hn, hk, v, he⟩ <;>
    obtain rfl := Host.Outcome.next.inj (ht.symm.trans he)
  case inl =>
    refine ⟨fun d hd => ?_, ?_, fun hn => ?_, fun a _ => s.faultEntry_memByte c a⟩
    · rw [hc] at hd; cases hd; rfl
    · rintro src rfl; cases hc
    · rw [hc] at hn; cases hn
  case inr.inl =>
    refine ⟨fun d hd => ?_, fun _ _ => rfl, fun _ hk => absurd rfl (hk src), fun a ha => ?_⟩
    · rw [hn] at hd; cases hd
    · exact memByte_exec_keyexp_above ht (ha.resolve_left fun hk => hk src rfl)
  case inr.inr =>
    refine ⟨fun d hd => ?_, fun src hi => absurd hi (hk src), fun _ _ => rfl, fun a _ => s.finish_memByte v a⟩
    rw [hn] at hd; cases hd

/-! ### The order of the tests (R254) -/

/-- `check` names a cause for a word that does not decode, and for one whose command has a fault. -/
theorem check_eq_fault_iff {s : State} {c : Cause} :
    s.check = .fault c ↔ (c = .illegalCmd ∧ ∃ e, decode s.port.cw = .error e) ∨
      ∃ i, decode s.port.cw = .ok i ∧ faultOf i s = some c := by
  cases hd : decode s.port.cw with
  | error e => simp [check_of_error hd, eq_comm]
  | ok i =>
    cases hf : faultOf i s with
    | some d => simp [check_of_fault hd hf, hf]
    | none => simp [check_of_noFault hd hf, hf]

/-- A command that completes leaves the flags of the fault alone. -/
theorem flags_of_noFault {i : Instr} {s t : State} (hf : faultOf i s = none) (ht : exec i s = .next t) :
    t.err = s.err ∧ t.ecause = s.ecause := by
  rcases exec_of_noFault hf ht with ⟨src, m, -, rfl⟩ | ⟨v, rfl⟩
  · exact ⟨rfl, rfl⟩
  · exact ⟨s.finish_err v, s.finish_ecause v⟩

/-- Settles O13: the step takes the fault of the verdict or runs its command, and each cause is named for the words that
have it. -/
theorem checkDecidesTheFault : Obligations.CheckDecidesTheFault := by
  unfold Obligations.CheckDecidesTheFault
  refine ⟨fun s c hr hv hb he hc => step_of_fault (accepts_of hr hv hb he) hc, fun s i hr hv hb he hc => ?_,
    fun s => ?_, fun s => ?_, fun s => ?_⟩
  · obtain ⟨t, ht, hs⟩ := step_of_execute (accepts_of hr hv hb he) hc
    obtain ⟨herr, hecause⟩ := flags_of_noFault (check_eq_execute_iff.1 hc).2 ht
    exact ⟨t, ht, herr.trans he, hecause, hs⟩
  · simp [check_eq_fault_iff, faultOf_eq_some_iff]
  · cases hd : decode s.port.cw <;> simp [check_eq_fault_iff, hd, faultOf_eq_some_iff]
  · cases hd : decode s.port.cw <;> simp [check_eq_fault_iff, hd, faultOf_eq_some_iff]

/-! ### The locked state (R257) -/

theorem run_core_succ {s t : State} (h : step s = .next t) (n : Nat) :
    Sys2Proof.core.run (n + 1) s = Sys2Proof.core.run n t := by
  have hstep : Sys2Proof.core.step s = .next t := h
  simp only [Host.Core.run, hstep]

/-- While the core is locked and no reset comes, the host's moves are all that happens. -/
theorem run_locked {s : State} (he : s.err = true) (hr : s.port.rst = false) (hh : ∀ p ∈ s.host, p.rst = false)
    (n : Nat) : Sys2Proof.core.run n s = .next (s.advanceBy n) := by
  induction n generalizing s with
  | zero => rfl
  | succ n ih =>
    obtain ⟨hr', hh'⟩ := s.advance_noReset hh
    rw [run_core_succ (step_waits hr (accepts_eq_false (.inr (.inr he))))]
    exact ih (s.advance_err.trans he) hr' hh'

/-- Settles O12: the host's moves touch no register, and `ERR = 1` holds `cmd_ready` at 0. -/
theorem lockedUntilReset : Obligations.LockedUntilReset := by
  unfold Obligations.LockedUntilReset
  intro n s he hr hh
  obtain ⟨p, h, e, hn⟩ := advanceBy_frame s n
  rw [run_locked he hr hh n, hn]
  exact ⟨_, rfl, he, rfl, rfl, rfl, rfl, rfl, rfl, rfl, by simp [State.cmdReady, he]⟩

end Sys2Proof.Proofs
end

section
/-! PROOFS. Reset and the unspecified store (spec/70_reset_and_hazards.md R280, R281): what an edge with `rst = 1` leaves, and that
no outcome shows what the round-key store holds before a KEYEXP has written it. -/

namespace Sys2Proof.Proofs

open Sys2Proof.Machine

/-! ### Reset (R280) -/

/-- After a reset every byte of the store is a free value. -/
theorem memByte_applyReset (s : State) (a : Nat) :
    s.applyReset.memByte a = Config.unspecifiedRkByte s.applyReset.rkEra a := by
  rw [State.memByte, s.applyReset_rk, Memory.read_nil, Option.getD_none]

/-- Settles O10: the step is a reset, and the host's move after it touches no register and no byte of the store. -/
theorem resetEdge : Obligations.ResetEdge := by
  unfold Obligations.ResetEdge
  intro s hr
  exact ⟨_, step_reset hr, by simp [State.cmdReady, memByte_applyReset]⟩

/-- Settles O57: the clock-level edge is a reset too, with no command left in flight. -/
theorem resetAbandonsTheCommand : Obligations.ResetAbandonsTheCommand := by
  unfold Obligations.ResetAbandonsTheCommand
  intro c hr
  exact ⟨_, tick_reset hr, by simp⟩

/-! ### Commands and the contents of the store (R253, R281) -/

/-- The state with other contents of the store: other listed bytes and another name of the free ones. -/
def withStore (m : Memory) (era : Nat) (s : State) : State := { s with rk := m, rkEra := era }

theorem withStore_operand (m : Memory) (era : Nat) (s : State) (src : Src) :
    (withStore m era s).operand src = s.operand src := by
  cases src <;> rfl

theorem indexKeyFault_unkeyed (r : Nat) {s : State} (hkv : s.kv = false) : ∃ c, indexKeyFault r s = some c := by
  by_cases hr : 10 < r
  · exact ⟨_, indexKeyFault_high s hr⟩
  · exact ⟨_, (indexKeyFault_low s (Nat.le_of_not_lt hr)).trans (keyFault_unkeyed hkv)⟩

/-- While `KV = 0` a command that has no fault is a KEYEXP or does not read the store: RDRK, ARK, ENC and DEC fault. -/
theorem unkeyed_noFault_cases {i : Instr} {s : State} (hkv : s.kv = false) (hf : faultOf i s = none) :
    (∃ src, i = .keyexp src) ∨
    ∃ v, exec i s = .next (s.finish v) ∧
      ∀ m era, exec i (withStore m era s) = .next ((withStore m era s).finish v) := by
  have hindex (r : Nat) : indexKeyFault r s ≠ none := by
    obtain ⟨c, hc⟩ := indexKeyFault_unkeyed r hkv
    rw [hc]; exact Option.some_ne_none c
  have hkey : keyFault s ≠ none := by
    rw [keyFault_unkeyed hkv]; exact Option.some_ne_none _
  cases i with
  | keyexp src => exact .inl ⟨src, rfl⟩
  | rdrk r => exact absurd hf (hindex r)
  | ark src r => exact absurd hf (hindex r)
  | enc src => exact absurd hf hkey
  | dec src => exact absurd hf hkey
  | _ => exact .inr ⟨_, rfl, fun _ _ => rfl⟩

/-- A store with the round keys of `k` holds bytes that depend on `k` alone. -/
theorem Expanded.memByte {k : Block} {t : State} (h : Expanded k 10 t) {a : Nat} (ha : a < 176) :
    t.memByte a = blockByte (expand k (a / 16)) (Fin.ofNat 16 (a % 16)) := by
  rw [← h.keys (a / 16) (by omega)]
  exact ((roundKeyIsFourWords t).2 a).symm

/-- KEYEXP gives states that are equal but for what the store held before, with the same 176 bytes. -/
theorem exec_keyexp_withStore (src : Src) (m : Memory) (era : Nat) (s : State) :
    ∃ t u, exec (.keyexp src) s = .next t ∧ exec (.keyexp src) (withStore m era s) = .next u ∧
      u = withStore u.rk era t ∧ ∀ a, a < 176 → t.memByte a = u.memByte a := by
  obtain ⟨t, ht, htx, htframe, -⟩ := execKeyexp_expands src s
  obtain ⟨u, hu, hux, huframe, -⟩ := execKeyexp_expands src (withStore m era s)
  refine ⟨t, u, ht, hu, ?_, fun a ha => ?_⟩
  · rw [htframe]; exact huframe
  · rw [htx.memByte ha, hux.memByte ha, withStore_operand]

/-- Settles O53: a fault and a result in `ACC` are the same whatever the store holds and leave `KV` at 0; KEYEXP, which
sets `KV`, leaves the same bytes. -/
theorem unspecifiedStoreIsNeverSeen : Obligations.UnspecifiedStoreIsNeverSeen := by
  unfold Obligations.UnspecifiedStoreIsNeverSeen
  intro i s m era hkv
  cases hf : faultOf i s with
  | some c =>
    have hf' : faultOf i (withStore m era s) = some c := hf ▸ faultOf_congr rfl i
    exact ⟨_, _, exec_of_fault hf, exec_of_fault hf', rfl, fun hk => by simp [hkv] at hk⟩
  | none =>
    rcases unkeyed_noFault_cases hkv hf with ⟨src, rfl⟩ | ⟨v, hs, hstore⟩
    · obtain ⟨t, u, ht, hu, heq, hbytes⟩ := exec_keyexp_withStore src m era s
      exact ⟨t, u, ht, hu, heq, fun _ => hbytes⟩
    · exact ⟨_, _, hs, hstore m era, rfl, fun hk => by simp [hkv] at hk⟩

end Sys2Proof.Proofs
end
